-- ==== Sys2Proof/Word.lean ====
section
/-!
DEFINITION. The widths of the machine's values (00_scope.md R5, R7): every value is unsigned.
-/

namespace Sys2Proof

/-- A byte: a general register, a timer, a memory cell, an immediate `NN`. -/
abbrev Byte := BitVec 8

/-- A 16-bit word: the index register, the program counter, a stack entry, an instruction (R5). -/
abbrev Word := BitVec 16

/-- A 4-bit operand nibble: a register number `X` or `Y`, or a sprite height `N` (30_encoding.md R91). -/
abbrev Nibble := BitVec 4

/-- A 12-bit address immediate `NNN` (30_encoding.md R91). -/
abbrev Addr12 := BitVec 12

/-- The display surface: 32 rows of 64 pixels. Pixel `(x, y)` is bit `x` of row `y`, which is bit number `x + 64*y` of
the rows laid end to end (10_state.md R38). -/
abbrev Surface := Vector (BitVec 64) 32

end Sys2Proof
end

