-- ==== Sys2Proof/Config.lean ====
section
/-!
DEFINITION. What is fixed for one machine, and the free values: the sizes and addresses of 00_scope.md R5, the
strap `IMPL`, the default font, the random byte and the number of frame ticks between two instruction steps.
-/

namespace Sys2Proof

/-- The three legal values of the strap `IMPL` (10_state.md R36). -/
inductive Impl where
  | cosmacVip
  | superChip
  | chip48
  deriving DecidableEq, Repr, Inhabited

namespace Config

/-- The size of memory in bytes, `MEM_SIZE` (00_scope.md R5). -/
def memSize : Nat := 4096

/-- The program load address and the reset value of `PC` (00_scope.md R5, 10_state.md R40). -/
def programBase : Nat := 0x200

/-- The font base address `FONT_BASE` (00_scope.md R5, 20_memory.md R71). -/
def fontBase : Nat := 0x050

/-- The font size in bytes: 16 glyphs of 5 bytes (00_scope.md R5). -/
def fontSize : Nat := 80

/-- The longest program image that can be loaded: `4096 - 0x200` bytes (20_memory.md R74). -/
def maxImage : Nat := 3584

/-- OPEN (00_scope.md R5, 92_eei_decisions.md D13): the strap `IMPL`, constant while the core runs and with no
default. No body: every statement about the machine holds for all three straps. Log 1, safe. -/
opaque impl : Impl

/-- FREE VALUE (00_scope.md R13, D17): the random byte the environment supplies at the `n`-th draw. No body: any
byte may come at any draw. Log 2, safe. -/
opaque rnd : Nat → Byte

/-- FREE VALUE (60_exceptions.md R252, D18): how many frame ticks the environment delivers between the `n`-th
instruction step and the next. No body: any number, zero included. Log 3, safe. -/
opaque ticksAfter : Nat → Nat

/-- The default of the parameter `FONT` (20_memory.md R72), glyph 0 first. PRESUMED: the spec marks it as taken
from general knowledge (D20); no step of the machine reads it. Log 7. -/
def defaultFont : List Byte :=
  [0xF0, 0x90, 0x90, 0x90, 0xF0,  0x20, 0x60, 0x20, 0x20, 0x70,
   0xF0, 0x10, 0xF0, 0x80, 0xF0,  0xF0, 0x10, 0xF0, 0x10, 0xF0] ++
  [0x90, 0x90, 0xF0, 0x10, 0x10,  0xF0, 0x80, 0xF0, 0x10, 0xF0,
   0xF0, 0x80, 0xF0, 0x90, 0xF0,  0xF0, 0x10, 0x20, 0x40, 0x40] ++
  [0xF0, 0x90, 0xF0, 0x90, 0xF0,  0xF0, 0x90, 0xF0, 0x10, 0xF0,
   0xF0, 0x90, 0xF0, 0x90, 0x90,  0xE0, 0x90, 0xE0, 0x90, 0xE0] ++
  [0xF0, 0x80, 0x80, 0x80, 0xF0,  0xE0, 0x90, 0x90, 0x90, 0xE0,
   0xF0, 0x80, 0xF0, 0x80, 0xF0,  0xF0, 0x80, 0xF0, 0x80, 0x80]

end Config

end Sys2Proof
end

