-- ==== Sys2Proof/Machine/State.lean ====
section
/-!
DEFINITION. The state of the core as plain data (10_state.md R20), its reset value (70_reset_and_hazards.md R270),
the five faults, and the canonical form of memory.
-/

namespace Sys2Proof.Machine

/-- The five fatal faults of the core with the value each carries (60_exceptions.md R230 to R234). The spec
describes what raising one does (R240): the latch `FAULT` takes it and the core freezes. So a fault is a NEXT state
whose `fault` field holds it, and no step answers `Host.Outcome.fault`. Log 4. -/
inductive Fault where
  /-- Raised at decode by a word that is no instruction; carries the word (R230). Safe: the spec's own entry. -/
  | unknownOpcode (op : Word)
  /-- Raised by `2NNN` with 16 entries on the stack; carries the return address (R231). Safe: the spec's own entry. -/
  | stackOverflow (v : Word)
  /-- Raised by `00EE` with an empty stack; carries nothing (R232). Safe: the spec's own entry. -/
  | stackUnderflow
  /-- Raised by `FX33` and `FX55` whose block leaves memory; carries `I` (R233). Safe: the spec's own entry. -/
  | outOfBoundsWrite (addr : Word)
  /-- Raised by a fetch, `FX65` or `DXYN` that leaves memory; carries the start address (R234). Safe: where the
  reference may go on with some value, the spec's machine stops (92_eei_decisions.md D8). -/
  | outOfBoundsRead (addr : Word)
  deriving DecidableEq, Repr

/-- Why `exec` gives no meaning. Every instruction of this core has its meaning, so nothing answers with it. -/
inductive Refusal where
  /-- For an arm of `exec` with no meaning yet; no arm is one. Safe: it would stop the machine. -/
  | notModelled (mnemonic : String)
  deriving DecidableEq, Repr

/-- Memory as (address, byte) pairs, in the canonical form of `Memory.wf`. -/
abbrev Memory := List Host.Cell

/-- What an unlisted address reads as: the reset contents of memory (10_state.md R46). -/
def Memory.unlisted : Byte := 0x00

/-- The canonical form: addresses strictly rising and inside memory (20_memory.md R60), no entry equal to what an
unlisted address reads as. -/
abbrev Memory.wf (m : Memory) : Prop :=
  m.Pairwise (fun c d => c.1 < d.1) ∧ ∀ c ∈ m, c.1 < Config.memSize ∧ c.2 ≠ Memory.unlisted

/-- The state of the core (10_state.md R20). The last two fields are the model's own: they index the free values
`Config.rnd` and `Config.ticksAfter` (logs 2 and 3). -/
structure State where
  /-- `V[0]` to `V[15]` (R21); `V[15]` doubles as the flag (R22). -/
  v : Vector Byte 16
  /-- The index register `I` (R24). -/
  i : Word
  /-- The program counter (R26). -/
  pc : Word
  /-- The number of live entries of the call stack, 0 to 16 (R29). -/
  sp : Fin 17
  /-- The call stack's slots (R29). -/
  stack : Vector Word 16
  /-- The delay timer (R31). -/
  dt : Byte
  /-- The sound timer (R32). -/
  st : Byte
  /-- The display surface (R38). -/
  fb : Surface
  /-- Memory (20_memory.md R60). -/
  mem : Memory
  /-- The fault latch (R35). -/
  fault : Option Fault
  /-- The model's own: how many random bytes have been drawn. -/
  draws : Nat
  /-- The model's own: how many instruction steps have been taken. -/
  turns : Nat
  deriving DecidableEq, Repr

/-- The state right after reset (10_state.md R40 to R47, 70_reset_and_hazards.md R270). The zeros of the registers,
`I`, the stack and the timers are the spec's decision D2 (log 8); those of `draws` and `turns` are DESIGN CHOICE
(logs 2 and 3). -/
def State.reset : State where
  v := Vector.replicate 16 0x00
  i := 0x0000
  pc := 0x0200
  sp := 0
  stack := Vector.replicate 16 0x0000
  dt := 0x00
  st := 0x00
  fb := Vector.replicate 32 0
  mem := []
  fault := none
  draws := 0
  turns := 0

/-- The outcome of one instruction or one step. -/
abbrev Result := Host.Outcome State Fault Refusal

end Sys2Proof.Machine
end

