-- ==== Sys2Proof/Machine/Ops.lean ====
section
/-!
DEFINITION. The named operations over registers, memory and the call stack (00_scope.md R8 to R12), and fault entry
(60_exceptions.md R240). There is no return from a fault: only reset leaves the faulted condition (R242).
-/

namespace Sys2Proof.Machine

/-! ## Registers (00_scope.md R8) -/

/-- The number of the flag register `VF` (10_state.md R22). -/
def vf : Nibble := 0xF

/-- `V[r]`: every register number an instruction can name exists (10_state.md R21). -/
def State.getV (s : State) (r : Nibble) : Byte := s.v[r.toNat]'(r.isLt)

/-- `V[r] <- b` (10_state.md R21). -/
def State.setV (s : State) (r : Nibble) (b : Byte) : State := { s with v := s.v.set r.toNat b r.isLt }

/-- The whole register file at once, for the block load (42_index_memory.md R175). -/
def State.setRegs (s : State) (v : Vector Byte 16) : State := { s with v := v }

/-- `I <- w` (10_state.md R24). -/
def State.setI (s : State) (w : Word) : State := { s with i := w }

/-- `PC <- w` (10_state.md R26). -/
def State.setPc (s : State) (w : Word) : State := { s with pc := w }

/-- `DT <- b` (10_state.md R31). -/
def State.setDt (s : State) (b : Byte) : State := { s with dt := b }

/-- `ST <- b` (10_state.md R32). -/
def State.setSt (s : State) (b : Byte) : State := { s with st := b }

/-- A new display surface (10_state.md R38). -/
def State.setFb (s : State) (fb : Surface) : State := { s with fb := fb }

/-- A new memory (20_memory.md R60). -/
def State.setMem (s : State) (m : Memory) : State := { s with mem := m }

/-- A new call stack: its slots and its count (10_state.md R29). -/
def State.setStack (s : State) (stack : Vector Word 16) (sp : Fin 17) : State := { s with stack := stack, sp := sp }

/-- One more random byte has been drawn (the model's own, log 2). -/
def State.countDraw (s : State) : State := { s with draws := s.draws + 1 }

/-- One more instruction step has been taken (the model's own, log 3). -/
def State.countTurn (s : State) : State := { s with turns := s.turns + 1 }

/-- `FAULT <- f` (10_state.md R35). -/
def State.latch (s : State) (f : Fault) : State := { s with fault := some f }

/-- `PC <- (PC + 2) & 0xFFFF`: the advance of fetch (30_encoding.md R90) and a taken skip (40_control_flow.md R124). -/
def State.advance (s : State) : State := s.setPc (s.pc + 2)

/-! ## Fault entry (60_exceptions.md R240, 00_scope.md R11) -/

/-- `raise f`: the latch takes the fault, nothing else is written, control goes nowhere. Every meaning raises before
its first write, so a fault is precise (60_exceptions.md R241). Log 4. -/
def raise (f : Fault) (s : State) : Result := .next (s.latch f)

/-! ## Memory, one byte at a time -/

/-- `MEM[a]` (20_memory.md R70). -/
def readByte : Memory → Nat → Byte
  | [], _ => Memory.unlisted
  | (k, b) :: m, a => if k = a then b else readByte m a

/-- Memory with nothing listed at `a`. -/
def eraseByte (m : Memory) (a : Nat) : Memory := m.filter (fun c => c.1 != a)

/-- List `b` at `a`, before the first higher address. -/
def insertByte (a : Nat) (b : Byte) : Memory → Memory
  | [] => [(a, b)]
  | (k, c) :: m => if a < k then (a, b) :: (k, c) :: m else (k, c) :: insertByte a b m

/-- `MEM[a] <- b` (20_memory.md R70). It keeps the canonical form: the byte an unlisted address reads as is never
listed. -/
def writeByte (m : Memory) (a : Nat) (b : Byte) : Memory :=
  if b = Memory.unlisted then eraseByte m a else insertByte a b (eraseByte m a)

/-! ## Memory, a block at a time (00_scope.md R9, R10) -/

/-- The bytes `MEM[a]`, `MEM[a+1]`, .. , `n` of them. -/
def readBytes (m : Memory) (a : Nat) : Nat → List Byte
  | 0 => []
  | n + 1 => readByte m a :: readBytes m (a + 1) n

/-- `MEM[a+k] <- b[k]` for every `k`. -/
def writeBytes (m : Memory) (a : Nat) : List Byte → Memory
  | [] => m
  | b :: bs => writeBytes (writeByte m a b) (a + 1) bs

/-- The block of `n` bytes at `a` lies inside memory; the block of no bytes always does (00_scope.md R9, R10). -/
def blockFits (a n : Nat) : Bool := n == 0 || a + n ≤ Config.memSize

/-- `MemRead(addr, n)`: no bytes where the block leaves memory (00_scope.md R9). -/
def memRead (s : State) (addr : Word) (n : Nat) : Option (List Byte) :=
  if blockFits addr.toNat n then some (readBytes s.mem addr.toNat n) else none

/-- `MemWrite(addr, n, b)`: nothing is written where the block leaves memory (00_scope.md R10). -/
def memWrite (s : State) (addr : Word) (bs : List Byte) : Option State :=
  if blockFits addr.toNat bs.length then some (s.setMem (writeBytes s.mem addr.toNat bs)) else none

/-! ## The call stack (00_scope.md R12) -/

/-- `Push(v)`: no state where the stack holds 16 entries. -/
def push (s : State) (v : Word) : Option State :=
  if h : s.sp.val < 16 then
    some (s.setStack (s.stack.set s.sp.val v h) ⟨s.sp.val + 1, Nat.succ_lt_succ h⟩)
  else none

/-- `Pop()`: nothing where the stack is empty; the popped slot keeps its content (10_state.md R29). -/
def pop (s : State) : Option (Word × State) :=
  match s.sp with
  | ⟨0, _⟩ => none
  | ⟨k + 1, h⟩ =>
    some (s.stack[k]'(Nat.lt_of_succ_lt_succ h), s.setStack s.stack ⟨k, Nat.lt_of_succ_lt h⟩)

end Sys2Proof.Machine
end

