-- ==== Sys2Proof/Machine/Flags.lean ====
section
/-!
DEFINITION. Every flag computation of the core (41_alu.md R161): each flag is 0x00 or 0x01 in `V[15]`
(10_state.md R22), computed from the operands before the instruction, and written after the result (00_scope.md R15).
-/

namespace Sys2Proof.Machine

/-- A flag as the byte that `V[15]` takes: 0x01 or 0x00 (10_state.md R22). -/
def flagByte (c : Bool) : Byte := if c then 0x01 else 0x00

/-- Carry of `8XY4`: the unbounded sum exceeds 255 (41_alu.md R150). -/
def carryOut (x y : Byte) : Bool := 255 < x.toNat + y.toNat

/-- No-borrow of `8XY5`: `x >= y` on the operands (41_alu.md R151). -/
def noBorrow (x y : Byte) : Bool := y.toNat ≤ x.toNat

/-- The bit shifted out at the bottom by `8XY6` (41_alu.md R152). -/
def lowBitOut (b : Byte) : Bool := b.getLsbD 0

/-- The bit shifted out at the top by `8XYE` (41_alu.md R153). -/
def highBitOut (b : Byte) : Bool := b.getLsbD 7

/-- `V[15] <- flag`. -/
def State.setFlag (s : State) (c : Bool) : State := s.setV vf (flagByte c)

/-- The result first and the flag last, so that with `X = 15` the flag stays (00_scope.md R15, 41_alu.md R162). -/
def State.setResultFlag (s : State) (x : Nibble) (r : Byte) (c : Bool) : State := (s.setV x r).setFlag c

end Sys2Proof.Machine
end

