-- ==== Sys2Proof/Machine/Operands.lean ====
section
/-!
DEFINITION. Every operand form of the core: immediates, the strap-dependent shift source, the index arithmetic, the
decimal digits, and the register block `V[0]` to `V[X]` (30_encoding.md R91, 42_index_memory.md R180).
-/

namespace Sys2Proof.Machine

/-- `zext_16(NNN)`: an address immediate (00_scope.md R7). -/
def zextAddr (nnn : Addr12) : Word := nnn.setWidth 16

/-- The source of the shifts: `V[Y]` under `COSMAC_VIP`, `V[X]` otherwise (41_alu.md R152, R153). -/
def shiftSource (impl : Impl) (s : State) (x y : Nibble) : Byte :=
  match impl with
  | .cosmacVip => s.getV y
  | .superChip => s.getV x
  | .chip48 => s.getV x

/-- `FX1E`: the unbounded sum, or 1 where it exceeds 0xFFF (42_index_memory.md R171). -/
def indexSum (i : Word) (b : Byte) : Word :=
  if 0xFFF < i.toNat + b.toNat then 0x0001 else BitVec.ofNat 16 (i.toNat + b.toNat)

/-- `FX29`: the address of the glyph of the low nibble (42_index_memory.md R172). -/
def glyphAddress (b : Byte) : Word := BitVec.ofNat 16 (Config.fontBase + (b &&& 0x0F).toNat * 5)

/-- `FX33`: hundreds, tens and ones (42_index_memory.md R173). -/
def decimalDigits (b : Byte) : List Byte :=
  [BitVec.ofNat 8 (b.toNat / 100), BitVec.ofNat 8 (b.toNat / 10 % 10), BitVec.ofNat 8 (b.toNat % 10)]

/-- `V[0]` to `V[x]`, the block `FX55` stores (42_index_memory.md R174). -/
def regBlock (s : State) (x : Nibble) : List Byte := s.v.toList.take (x.toNat + 1)

/-- `V[k] <- b[0]`, `V[k+1] <- b[1]`, .. : the block `FX65` loads, from `k` up (42_index_memory.md R175). -/
def loadRegs (v : Vector Byte 16) (k : Nat) : List Byte → Vector Byte 16
  | [] => v
  | b :: bs => loadRegs (v.setIfInBounds k b) (k + 1) bs

end Sys2Proof.Machine
end

