-- ==== Sys2Proof/Machine/Alu.lean ====
section
/-!
DEFINITION. Register load, arithmetic, logic and shift (41_alu.md): `6XNN`, `7XNN`, `8XY0` to `8XY6`, `8XYE`. All
values are unsigned 8-bit, addition and subtraction are modulo 256 (R160).
-/

namespace Sys2Proof.Machine

/-- `6XNN`, load immediate (41_alu.md R140). -/
def execLd6XNN (x : Nibble) (nn : Byte) (s : State) : Result := .next (s.setV x nn)

/-- `7XNN`, add immediate: modulo 256, no flag (41_alu.md R141). -/
def execAdd7XNN (x : Nibble) (nn : Byte) (s : State) : Result := .next (s.setV x (s.getV x + nn))

/-- `8XY0`, copy (41_alu.md R142). -/
def execLd8XY0 (x y : Nibble) (s : State) : Result := .next (s.setV x (s.getV y))

/-- `8XY1`, bitwise OR; `VF` is left alone (41_alu.md R143). -/
def execOr8XY1 (x y : Nibble) (s : State) : Result := .next (s.setV x (s.getV x ||| s.getV y))

/-- `8XY2`, bitwise AND; `VF` is left alone (41_alu.md R144). -/
def execAnd8XY2 (x y : Nibble) (s : State) : Result := .next (s.setV x (s.getV x &&& s.getV y))

/-- `8XY3`, bitwise XOR; `VF` is left alone (41_alu.md R145). -/
def execXor8XY3 (x y : Nibble) (s : State) : Result := .next (s.setV x (s.getV x ^^^ s.getV y))

/-- `8XY4`, add with carry flag (41_alu.md R150). -/
def execAdd8XY4 (x y : Nibble) (s : State) : Result :=
  .next (s.setResultFlag x (s.getV x + s.getV y) (carryOut (s.getV x) (s.getV y)))

/-- `8XY5`, subtract with no-borrow flag (41_alu.md R151). -/
def execSub8XY5 (x y : Nibble) (s : State) : Result :=
  .next (s.setResultFlag x (s.getV x - s.getV y) (noBorrow (s.getV x) (s.getV y)))

/-- `8XY6` under a given strap: a zero enters at bit 7 (41_alu.md R152). -/
def shiftRight (impl : Impl) (x y : Nibble) (s : State) : Result :=
  .next (s.setResultFlag x (shiftSource impl s x y >>> 1) (lowBitOut (shiftSource impl s x y)))

/-- `8XYE` under a given strap: a zero enters at bit 0 (41_alu.md R153). -/
def shiftLeft (impl : Impl) (x y : Nibble) (s : State) : Result :=
  .next (s.setResultFlag x (shiftSource impl s x y <<< 1) (highBitOut (shiftSource impl s x y)))

/-- `8XY6`, shift right by one under the machine's strap (41_alu.md R152). Log 1. -/
def execShr8XY6 (x y : Nibble) (s : State) : Result := shiftRight Config.impl x y s

/-- `8XYE`, shift left by one under the machine's strap (41_alu.md R153). Log 1. -/
def execShl8XYE (x y : Nibble) (s : State) : Result := shiftLeft Config.impl x y s

end Sys2Proof.Machine
end

