-- ==== Sys2Proof/Machine/ControlFlow.lean ====
section
/-!
DEFINITION. Control transfer (40_control_flow.md): `00EE`, `1NNN`, `2NNN`, `3XNN`, `4XNN`, `5XY0`, `9XY0`. On entry
`PC` holds the instruction's address plus 2 (00_scope.md R16).
-/

namespace Sys2Proof.Machine

/-- Step over the next two bytes, whatever they hold, where the condition holds (40_control_flow.md R124). -/
def skipIf (c : Bool) (s : State) : Result := .next (if c then s.advance else s)

/-- `00EE`, return (40_control_flow.md R121). -/
def execRet00EE (s : State) : Result :=
  match pop s with
  | some (t, s') => .next (s'.setPc t)
  | none => raise .stackUnderflow s

/-- `1NNN`, jump (40_control_flow.md R122). -/
def execJp1NNN (nnn : Addr12) (s : State) : Result := .next (s.setPc (zextAddr nnn))

/-- `2NNN`, call: the current `PC` is pushed (40_control_flow.md R123). -/
def execCall2NNN (nnn : Addr12) (s : State) : Result :=
  match push s s.pc with
  | some s' => .next (s'.setPc (zextAddr nnn))
  | none => raise (.stackOverflow s.pc) s

/-- `3XNN`, skip if register equals immediate (40_control_flow.md R124). -/
def execSe3XNN (x : Nibble) (nn : Byte) (s : State) : Result := skipIf (s.getV x == nn) s

/-- `4XNN`, skip if register differs from immediate (40_control_flow.md R125). -/
def execSne4XNN (x : Nibble) (nn : Byte) (s : State) : Result := skipIf (s.getV x != nn) s

/-- `5XY0`, skip if registers equal (40_control_flow.md R126). -/
def execSe5XY0 (x y : Nibble) (s : State) : Result := skipIf (s.getV x == s.getV y) s

/-- `9XY0`, skip if registers differ (40_control_flow.md R127). -/
def execSne9XY0 (x y : Nibble) (s : State) : Result := skipIf (s.getV x != s.getV y) s

end Sys2Proof.Machine
end

