-- ==== Sys2Proof/Machine/Display.lean ====
section
/-!
DEFINITION. The display (43_display.md): `00E0` and `DXYN`. The draw follows the loops of R192.
-/

namespace Sys2Proof.Machine

/-- `FB[x, y]`: bit `x` of row `y` (10_state.md R38). -/
def pixel (fb : Surface) (x y : Nat) : Bool := (fb[y]?.getD 0).getLsbD x

/-- `FB[x, y] <- FB[x, y] ^ 1` (43_display.md R192). -/
def flipPixel (fb : Surface) (x y : Nat) : Surface :=
  fb.setIfInBounds y (fb[y]?.getD 0 ^^^ BitVec.twoPow 64 x)

/-- The surface with every pixel off (43_display.md R190). -/
def blank : Surface := Vector.replicate 32 0

/-- Column `c` of a sprite row, 0 at the left: bit `7 - c` (43_display.md R191). -/
def spriteBit (row : Byte) (c : Nat) : Bool := row.getLsbD (7 - c)

/-- What a draw changes: the surface, and whether a pixel went from on to off (43_display.md R192). -/
structure Canvas where
  fb : Surface
  hit : Bool
  deriving DecidableEq, Repr

/-- The inner loop of R192 for one sprite column: a column past the right edge is dropped (43_display.md R193). -/
def drawColumn (x0 y : Nat) (row : Byte) (k : Canvas) (c : Nat) : Canvas :=
  if x0 + c ≤ 63 ∧ spriteBit row c = true then
    { fb := flipPixel k.fb (x0 + c) y, hit := k.hit || pixel k.fb (x0 + c) y }
  else k

/-- One sprite row: a row past the bottom edge is dropped (43_display.md R193). -/
def drawRow (x0 y : Nat) (row : Byte) (k : Canvas) : Canvas :=
  if y ≤ 31 then [0, 1, 2, 3, 4, 5, 6, 7].foldl (drawColumn x0 y row) k else k

/-- The rows of a sprite, top row first (43_display.md R192). -/
def drawRows (x0 y : Nat) (k : Canvas) : List Byte → Canvas
  | [] => k
  | row :: rows => drawRows x0 (y + 1) (drawRow x0 y row k) rows

/-- `00E0`, clear display (43_display.md R190). -/
def execCls00E0 (s : State) : Result := .next (s.setFb blank)

/-- `DXYN`, draw sprite: all `N` bytes are tested before a pixel changes; the coordinates are read before `V[15]` is
written; `V[15]` is written on every execution (43_display.md R192, R193). -/
def execDrwDXYN (x y n : Nibble) (s : State) : Result :=
  match memRead s s.i n.toNat with
  | some rows =>
    let k := drawRows (s.getV x &&& 63).toNat (s.getV y &&& 31).toNat ⟨s.fb, false⟩ rows
    .next ((s.setFb k.fb).setFlag k.hit)
  | none => raise (.outOfBoundsRead s.i) s

end Sys2Proof.Machine
end

