-- ==== Sys2Proof/Machine/IndexMemory.lean ====
section
/-!
DEFINITION. Index register, load and store (42_index_memory.md): `ANNN`, `FX1E`, `FX29`, `FX33`, `FX55`, `FX65`.
The one data addressing mode is `I + k`, unbounded, compared with the memory size (R180); `I` is unchanged by the
block forms under every strap (00_scope.md R14).
-/

namespace Sys2Proof.Machine

/-- Store a block at `I`, or fault with nothing written (20_memory.md R66). -/
def storeAtI (bs : List Byte) (s : State) : Result :=
  match memWrite s s.i bs with
  | some s' => .next s'
  | none => raise (.outOfBoundsWrite s.i) s

/-- `ANNN`, load index (42_index_memory.md R170). -/
def execLdANNN (nnn : Addr12) (s : State) : Result := .next (s.setI (zextAddr nnn))

/-- `FX1E`, add register to index, under every strap (42_index_memory.md R171). -/
def execAddFX1E (x : Nibble) (s : State) : Result := .next (s.setI (indexSum s.i (s.getV x)))

/-- `FX29`, glyph address; no memory is read (42_index_memory.md R172). -/
def execLdFX29 (x : Nibble) (s : State) : Result := .next (s.setI (glyphAddress (s.getV x)))

/-- `FX33`, decimal digits at `I`, `I+1`, `I+2` (42_index_memory.md R173). -/
def execLdFX33 (x : Nibble) (s : State) : Result := storeAtI (decimalDigits (s.getV x)) s

/-- `FX55`, store `V[0]` to `V[X]` at `I` (42_index_memory.md R174). -/
def execLdFX55 (x : Nibble) (s : State) : Result := storeAtI (regBlock s x) s

/-- `FX65`, load `V[0]` to `V[X]` from `I` (42_index_memory.md R175). -/
def execLdFX65 (x : Nibble) (s : State) : Result :=
  match memRead s s.i (x.toNat + 1) with
  | some bs => .next (s.setRegs (loadRegs s.v 0 bs))
  | none => raise (.outOfBoundsRead s.i) s

end Sys2Proof.Machine
end

