-- ==== Sys2Proof/Machine/TimersRandom.lean ====
section
/-!
DEFINITION. Random and timer access (44_timers_random.md): `CXNN`, `FX07`, `FX15`, `FX18`; and the timer unit's
frame tick (60_exceptions.md R253), one at a time and many at once.
-/

namespace Sys2Proof.Machine

/-- `CXNN` for a given draw (44_timers_random.md R210). -/
def randomInto (draw : Byte) (x : Nibble) (nn : Byte) (s : State) : State := s.setV x (draw &&& nn)

/-- `CXNN`, random: the next byte of the environment, whatever it is (44_timers_random.md R210). Log 2. -/
def execRndCXNN (x : Nibble) (nn : Byte) (s : State) : Result :=
  .next (randomInto (Config.rnd s.draws) x nn s).countDraw

/-- `FX07`, read delay timer (44_timers_random.md R211). -/
def execLdFX07 (x : Nibble) (s : State) : Result := .next (s.setV x s.dt)

/-- `FX15`, write delay timer (44_timers_random.md R212). -/
def execLdFX15 (x : Nibble) (s : State) : Result := .next (s.setDt (s.getV x))

/-- `FX18`, write sound timer (44_timers_random.md R213). -/
def execLdFX18 (x : Nibble) (s : State) : Result := .next (s.setSt (s.getV x))

/-! ## The frame tick (60_exceptions.md R253) -/

/-- `if T > 0 then T <- T - 1` (60_exceptions.md R253). -/
def countDown (t : Byte) : Byte := if 0 < t.toNat then t - 1 else t

/-- One frame tick: both timers, each on its own; a faulted core takes none (60_exceptions.md R253, D30). -/
def State.tick (s : State) : State :=
  match s.fault with
  | none => (s.setDt (countDown s.dt)).setSt (countDown s.st)
  | some _ => s

/-- A timer after `n` decrements: it stops at 0 (60_exceptions.md R253). -/
def countDownBy (n : Nat) (t : Byte) : Byte := if t = 0 then 0 else BitVec.ofNat 8 (t.toNat - n)

/-- `n` frame ticks at once. -/
def State.ticks (s : State) (n : Nat) : State :=
  match s.fault with
  | none => (s.setDt (countDownBy n s.dt)).setSt (countDownBy n s.st)
  | some _ => s

/-- What the environment does between an instruction step and the next: a free number of frame ticks
(60_exceptions.md R252). The step is counted. Log 3. -/
def betweenSteps (turn : Nat) : Result → Result
  | .next t => .next (t.ticks (Config.ticksAfter turn)).countTurn
  | .fault f => .fault f
  | .refused r => .refused r

end Sys2Proof.Machine
end

