-- ==== Sys2Proof/Syntax.lean ====
section
/-!
DEFINITION. The 29 instructions (30_encoding.md R92), one constructor per row of spec/opcode_table.json. A
constructor's name ends in the row's pattern; its arguments are the row's operand fields, in the order of the word.
-/

namespace Sys2Proof

/-- The instructions of the core. `x` and `y` are register numbers, `n` a sprite height, `nn` an 8-bit immediate,
`nnn` a 12-bit address (30_encoding.md R91). -/
inductive Instr where
  | cls00E0
  | ret00EE
  | jp1NNN (nnn : Addr12)
  | call2NNN (nnn : Addr12)
  | se3XNN (x : Nibble) (nn : Byte)
  | sne4XNN (x : Nibble) (nn : Byte)
  | se5XY0 (x y : Nibble)
  | ld6XNN (x : Nibble) (nn : Byte)
  | add7XNN (x : Nibble) (nn : Byte)
  | ld8XY0 (x y : Nibble)
  | or8XY1 (x y : Nibble)
  | and8XY2 (x y : Nibble)
  | xor8XY3 (x y : Nibble)
  | add8XY4 (x y : Nibble)
  | sub8XY5 (x y : Nibble)
  | shr8XY6 (x y : Nibble)
  | shl8XYE (x y : Nibble)
  | sne9XY0 (x y : Nibble)
  | ldANNN (nnn : Addr12)
  | rndCXNN (x : Nibble) (nn : Byte)
  | drwDXYN (x y n : Nibble)
  | ldFX07 (x : Nibble)
  | ldFX15 (x : Nibble)
  | ldFX18 (x : Nibble)
  | addFX1E (x : Nibble)
  | ldFX29 (x : Nibble)
  | ldFX33 (x : Nibble)
  | ldFX55 (x : Nibble)
  | ldFX65 (x : Nibble)
  deriving DecidableEq, Repr

end Sys2Proof
end

