-- ==== Sys2Proof/Machine/Dispatch.lean ====
section
/-!
DEFINITION. The execute phase: one arm per instruction. On entry `PC` already holds the instruction's address plus 2
(00_scope.md R16), and the latch has been tested by the step (log 5).
-/

namespace Sys2Proof.Machine

def exec (i : Instr) (s : State) : Host.Outcome State Fault Refusal :=
  match i with
  | .cls00E0 => Sys2Proof.Machine.execCls00E0 s
  | .ret00EE => Sys2Proof.Machine.execRet00EE s
  | .jp1NNN nnn => Sys2Proof.Machine.execJp1NNN nnn s
  | .call2NNN nnn => Sys2Proof.Machine.execCall2NNN nnn s
  | .se3XNN x nn => Sys2Proof.Machine.execSe3XNN x nn s
  | .sne4XNN x nn => Sys2Proof.Machine.execSne4XNN x nn s
  | .se5XY0 x y => Sys2Proof.Machine.execSe5XY0 x y s
  | .ld6XNN x nn => Sys2Proof.Machine.execLd6XNN x nn s
  | .add7XNN x nn => Sys2Proof.Machine.execAdd7XNN x nn s
  | .ld8XY0 x y => Sys2Proof.Machine.execLd8XY0 x y s
  | .or8XY1 x y => Sys2Proof.Machine.execOr8XY1 x y s
  | .and8XY2 x y => Sys2Proof.Machine.execAnd8XY2 x y s
  | .xor8XY3 x y => Sys2Proof.Machine.execXor8XY3 x y s
  | .add8XY4 x y => Sys2Proof.Machine.execAdd8XY4 x y s
  | .sub8XY5 x y => Sys2Proof.Machine.execSub8XY5 x y s
  | .shr8XY6 x y => Sys2Proof.Machine.execShr8XY6 x y s
  | .shl8XYE x y => Sys2Proof.Machine.execShl8XYE x y s
  | .sne9XY0 x y => Sys2Proof.Machine.execSne9XY0 x y s
  | .ldANNN nnn => Sys2Proof.Machine.execLdANNN nnn s
  | .rndCXNN x nn => Sys2Proof.Machine.execRndCXNN x nn s
  | .drwDXYN x y n => Sys2Proof.Machine.execDrwDXYN x y n s
  | .ldFX07 x => Sys2Proof.Machine.execLdFX07 x s
  | .ldFX15 x => Sys2Proof.Machine.execLdFX15 x s
  | .ldFX18 x => Sys2Proof.Machine.execLdFX18 x s
  | .addFX1E x => Sys2Proof.Machine.execAddFX1E x s
  | .ldFX29 x => Sys2Proof.Machine.execLdFX29 x s
  | .ldFX33 x => Sys2Proof.Machine.execLdFX33 x s
  | .ldFX55 x => Sys2Proof.Machine.execLdFX55 x s
  | .ldFX65 x => Sys2Proof.Machine.execLdFX65 x s

end Sys2Proof.Machine
end

