-- ==== Sys2Proof/Decode.lean ====
section
/-!
DEFINITION. The decoder (30_encoding.md R93 to R104), total on all 65536 words, and the encoder, written from the
formats of R92. `IMPL` plays no part in either (R93).
-/

namespace Sys2Proof

/-! ## The fields of a word (30_encoding.md R91) -/

/-- `n1 = op[15:12]`, the major opcode. -/
def fieldN1 (op : Word) : Nibble := op.extractLsb' 12 4

/-- `X = n2 = op[11:8]`. -/
def fieldX (op : Word) : Nibble := op.extractLsb' 8 4

/-- `Y = n3 = op[7:4]`. -/
def fieldY (op : Word) : Nibble := op.extractLsb' 4 4

/-- `N = n4 = op[3:0]`. -/
def fieldN (op : Word) : Nibble := op.extractLsb' 0 4

/-- `NN = op[7:0]`. -/
def fieldNN (op : Word) : Byte := op.extractLsb' 0 8

/-- `NNN = op[11:0]`. -/
def fieldNNN (op : Word) : Addr12 := op.extractLsb' 0 12

/-! ## The decoder -/

/-- What the decoder makes of a word: one of the 29 instructions, or no instruction (30_encoding.md R93). -/
inductive Decoded where
  /-- The word is this instruction. -/
  | instr (i : Instr)
  /-- The word is no instruction: `UnknownOpcode` with the whole word (30_encoding.md R104). -/
  | unknownOpcode (op : Word)
  deriving DecidableEq, Repr

/-- Family 0: two single words; the other 4094 are no instruction (30_encoding.md R94). -/
def decode0 (op : Word) : Decoded :=
  if op = 0x00E0#16 then .instr .cls00E0
  else if op = 0x00EE#16 then .instr .ret00EE
  else .unknownOpcode op

/-- Family 5: the pattern `5XY0` as written (30_encoding.md R97). -/
def decode5 (op : Word) : Decoded :=
  if fieldN op = 0 then .instr (.se5XY0 (fieldX op) (fieldY op)) else .unknownOpcode op

/-- Family 8: sub-dispatch on `n4` (30_encoding.md R98). -/
def decode8 (op : Word) : Decoded :=
  match (fieldN op).toNat with
  | 0x0 => .instr (.ld8XY0 (fieldX op) (fieldY op))
  | 0x1 => .instr (.or8XY1 (fieldX op) (fieldY op))
  | 0x2 => .instr (.and8XY2 (fieldX op) (fieldY op))
  | 0x3 => .instr (.xor8XY3 (fieldX op) (fieldY op))
  | 0x4 => .instr (.add8XY4 (fieldX op) (fieldY op))
  | 0x5 => .instr (.sub8XY5 (fieldX op) (fieldY op))
  | 0x6 => .instr (.shr8XY6 (fieldX op) (fieldY op))
  | 0xE => .instr (.shl8XYE (fieldX op) (fieldY op))
  | _ => .unknownOpcode op

/-- Family 9: the pattern `9XY0` as written (30_encoding.md R97). -/
def decode9 (op : Word) : Decoded :=
  if fieldN op = 0 then .instr (.sne9XY0 (fieldX op) (fieldY op)) else .unknownOpcode op

/-- Family F: sub-dispatch on the low byte (30_encoding.md R100). -/
def decodeF (op : Word) : Decoded :=
  match (fieldNN op).toNat with
  | 0x07 => .instr (.ldFX07 (fieldX op))
  | 0x15 => .instr (.ldFX15 (fieldX op))
  | 0x18 => .instr (.ldFX18 (fieldX op))
  | 0x1E => .instr (.addFX1E (fieldX op))
  | 0x29 => .instr (.ldFX29 (fieldX op))
  | 0x33 => .instr (.ldFX33 (fieldX op))
  | 0x55 => .instr (.ldFX55 (fieldX op))
  | 0x65 => .instr (.ldFX65 (fieldX op))
  | _ => .unknownOpcode op

/-- The decoder: dispatch on `n1` (30_encoding.md R93). Families B and E hold no instruction (R101). -/
def decode (op : Word) : Decoded :=
  match (fieldN1 op).toNat with
  | 0x0 => decode0 op
  | 0x1 => .instr (.jp1NNN (fieldNNN op))
  | 0x2 => .instr (.call2NNN (fieldNNN op))
  | 0x3 => .instr (.se3XNN (fieldX op) (fieldNN op))
  | 0x4 => .instr (.sne4XNN (fieldX op) (fieldNN op))
  | 0x5 => decode5 op
  | 0x6 => .instr (.ld6XNN (fieldX op) (fieldNN op))
  | 0x7 => .instr (.add7XNN (fieldX op) (fieldNN op))
  | 0x8 => decode8 op
  | 0x9 => decode9 op
  | 0xA => .instr (.ldANNN (fieldNNN op))
  | 0xC => .instr (.rndCXNN (fieldX op) (fieldNN op))
  | 0xD => .instr (.drwDXYN (fieldX op) (fieldY op) (fieldN op))
  | 0xF => decodeF op
  | _ => .unknownOpcode op

/-! ## Bytes: an instruction is stored high byte first (20_memory.md R62) -/

/-- The word whose high byte is `hi`, at the lower address, and whose low byte is `lo` (20_memory.md R62). -/
def wordOfBytes (hi lo : Byte) : Word := hi ++ lo

/-- The high byte of a word, stored at the lower address (20_memory.md R62). -/
def highByte (op : Word) : Byte := op.extractLsb' 8 8

/-- The low byte of a word, stored at the higher address (20_memory.md R62). -/
def lowByte (op : Word) : Byte := op.extractLsb' 0 8

/-- The decoder on the two bytes of an instruction as memory holds them. -/
def decodeBytes (hi lo : Byte) : Decoded := decode (wordOfBytes hi lo)

/-! ## The encoder -/

/-- Format `A`: fixed nibble, `NNN` (30_encoding.md R92). -/
def formatA (n1 : Nibble) (nnn : Addr12) : Word := n1 ++ nnn

/-- Format `XI`: fixed nibble, `X`, `NN`; format `FX` is the same with `NN` fixed (30_encoding.md R92). -/
def formatXI (n1 x : Nibble) (nn : Byte) : Word := n1 ++ x ++ nn

/-- Formats `XY` and `XYN`: fixed nibble, `X`, `Y`, last nibble (30_encoding.md R92). -/
def formatXYN (n1 x y n4 : Nibble) : Word := n1 ++ x ++ y ++ n4

/-- The word of an instruction (30_encoding.md R92). -/
def encode : Instr → Word
  | .cls00E0 => 0x00E0#16
  | .ret00EE => 0x00EE#16
  | .jp1NNN nnn => formatA 0x1 nnn
  | .call2NNN nnn => formatA 0x2 nnn
  | .se3XNN x nn => formatXI 0x3 x nn
  | .sne4XNN x nn => formatXI 0x4 x nn
  | .se5XY0 x y => formatXYN 0x5 x y 0x0
  | .ld6XNN x nn => formatXI 0x6 x nn
  | .add7XNN x nn => formatXI 0x7 x nn
  | .ld8XY0 x y => formatXYN 0x8 x y 0x0
  | .or8XY1 x y => formatXYN 0x8 x y 0x1
  | .and8XY2 x y => formatXYN 0x8 x y 0x2
  | .xor8XY3 x y => formatXYN 0x8 x y 0x3
  | .add8XY4 x y => formatXYN 0x8 x y 0x4
  | .sub8XY5 x y => formatXYN 0x8 x y 0x5
  | .shr8XY6 x y => formatXYN 0x8 x y 0x6
  | .shl8XYE x y => formatXYN 0x8 x y 0xE
  | .sne9XY0 x y => formatXYN 0x9 x y 0x0
  | .ldANNN nnn => formatA 0xA nnn
  | .rndCXNN x nn => formatXI 0xC x nn
  | .drwDXYN x y n => formatXYN 0xD x y n
  | .ldFX07 x => formatXI 0xF x 0x07
  | .ldFX15 x => formatXI 0xF x 0x15
  | .ldFX18 x => formatXI 0xF x 0x18
  | .addFX1E x => formatXI 0xF x 0x1E
  | .ldFX29 x => formatXI 0xF x 0x29
  | .ldFX33 x => formatXI 0xF x 0x33
  | .ldFX55 x => formatXI 0xF x 0x55
  | .ldFX65 x => formatXI 0xF x 0x65

/-! ## The opcode table's numbering -/

/-- The word the table numbers by `nbits` and `w`: one 16-bit word, the bits from `nbits` up are zero. -/
def tableWord (nbits w : Nat) : Word := BitVec.ofNat 16 (w % 2 ^ nbits)

/-- The instruction the decoder reads from the word that spec/opcode_table.json numbers so, laid out as the
hardware stores it, high byte first. -/
def decodeTableWord (nbits w : Nat) : Option Instr :=
  match decodeBytes (highByte (tableWord nbits w)) (lowByte (tableWord nbits w)) with
  | .instr i => some i
  | .unknownOpcode _ => none

end Sys2Proof
end

