-- ==== Sys2Proof/Machine/Fetch.lean ====
section
/-!
DEFINITION. Instruction fetch (30_encoding.md R90), and placing an instruction where it will be fetched.
-/

namespace Sys2Proof.Machine

/-- The word at `PC`, high byte first; none where a byte of it lies outside memory (30_encoding.md R90,
20_memory.md R62, R65). Any `PC`, odd or even, is legal (20_memory.md R64). -/
def fetch (s : State) : Option Word :=
  if s.pc.toNat + 2 ≤ Config.memSize then
    some (wordOfBytes (readByte s.mem s.pc.toNat) (readByte s.mem (s.pc.toNat + 1)))
  else none

/-- The address an instruction is placed at: `PC` where it can be fetched there, else the program base. -/
def placeAddress (s : State) : Nat :=
  if s.pc.toNat + 2 ≤ Config.memSize then s.pc.toNat else Config.programBase

/-- The word stored where the next fetch finds it, high byte first, with the core able to step (log 6). -/
def placeWord (s : State) (op : Word) : State :=
  { s with
    pc := BitVec.ofNat 16 (placeAddress s)
    mem := writeBytes s.mem (placeAddress s) [highByte op, lowByte op]
    fault := none }

end Sys2Proof.Machine
end

