-- ==== Sys2Proof/Machine/Step.lean ====
section
/-!
DEFINITION. The instruction step (60_exceptions.md R251) and the machine's step: one instruction step, then the
frame ticks the environment delivers before the next one (R252, log 3).
-/

namespace Sys2Proof.Machine

/-- One instruction step: fetch, decode, execute, or a fault of the first phase that has one (60_exceptions.md R251,
R238). A faulted core takes no step: nothing changes until reset (R240). Log 4. -/
def instrStep (s : State) : Host.Outcome State Fault Refusal :=
  match s.fault with
  | some _ => .next s
  | none =>
    match fetch s with
    | none => raise (.outOfBoundsRead s.pc) s
    | some op =>
      match decode op with
      | .unknownOpcode w => raise (.unknownOpcode w) s.advance
      | .instr i => exec i s.advance

/-- One step of the machine: an instruction step, then a free number of frame ticks (60_exceptions.md R250 to R253).
A faulted core takes neither. -/
def step (s : State) : Host.Outcome State Fault Refusal :=
  match s.fault with
  | some _ => .next s
  | none => betweenSteps s.turns (instrStep s)

/-- The state whose very next step runs the instruction that spec/opcode_table.json numbers by `nbits` and `w`: its
two bytes stand at `PC`. It stands for the host's load (70_reset_and_hazards.md R272). Log 6. -/
def State.withFetchWord (s : State) (nbits w : Nat) : State := placeWord s (tableWord nbits w)

end Sys2Proof.Machine
end

