-- ==== Sys2Proof/WellFormed.lean ====
section
/-!
DEFINITION. What can be ill-formed. An instruction TERM cannot: each field has the width the spec gives it
(30_encoding.md R91), so every `Instr` is well formed by its type. A WORD can be no instruction (R92), a font can
have the wrong size (20_memory.md R72) and a program image can be too long (R74). The form of memory is
`Memory.wf` in Machine/State.lean.
-/

namespace Sys2Proof

/-- A row of the opcode map: a word `op` is the instruction exactly when `op & mask = value` (30_encoding.md R92). -/
structure Pattern where
  mask : Word
  value : Word
  deriving DecidableEq, Repr

/-- `op & mask = value` (30_encoding.md R92). -/
def Pattern.admits (p : Pattern) (op : Word) : Bool := op &&& p.mask == p.value

/-- The row of the opcode map an instruction belongs to, format by format (30_encoding.md R92). -/
def Instr.pattern : Instr → Pattern
  | .cls00E0 => ⟨0xFFFF, 0x00E0⟩
  | .ret00EE => ⟨0xFFFF, 0x00EE⟩
  | .jp1NNN _ => ⟨0xF000, 0x1000⟩
  | .call2NNN _ => ⟨0xF000, 0x2000⟩
  | .se3XNN _ _ => ⟨0xF000, 0x3000⟩
  | .sne4XNN _ _ => ⟨0xF000, 0x4000⟩
  | .se5XY0 _ _ => ⟨0xF00F, 0x5000⟩
  | .ld6XNN _ _ => ⟨0xF000, 0x6000⟩
  | .add7XNN _ _ => ⟨0xF000, 0x7000⟩
  | .ld8XY0 _ _ => ⟨0xF00F, 0x8000⟩
  | .or8XY1 _ _ => ⟨0xF00F, 0x8001⟩
  | .and8XY2 _ _ => ⟨0xF00F, 0x8002⟩
  | .xor8XY3 _ _ => ⟨0xF00F, 0x8003⟩
  | .add8XY4 _ _ => ⟨0xF00F, 0x8004⟩
  | .sub8XY5 _ _ => ⟨0xF00F, 0x8005⟩
  | .shr8XY6 _ _ => ⟨0xF00F, 0x8006⟩
  | .shl8XYE _ _ => ⟨0xF00F, 0x800E⟩
  | .sne9XY0 _ _ => ⟨0xF00F, 0x9000⟩
  | .ldANNN _ => ⟨0xF000, 0xA000⟩
  | .rndCXNN _ _ => ⟨0xF000, 0xC000⟩
  | .drwDXYN _ _ _ => ⟨0xF000, 0xD000⟩
  | .ldFX07 _ => ⟨0xF0FF, 0xF007⟩
  | .ldFX15 _ => ⟨0xF0FF, 0xF015⟩
  | .ldFX18 _ => ⟨0xF0FF, 0xF018⟩
  | .addFX1E _ => ⟨0xF0FF, 0xF01E⟩
  | .ldFX29 _ => ⟨0xF0FF, 0xF029⟩
  | .ldFX33 _ => ⟨0xF0FF, 0xF033⟩
  | .ldFX55 _ => ⟨0xF0FF, 0xF055⟩
  | .ldFX65 _ => ⟨0xF0FF, 0xF065⟩

/-- The 29 rows of the opcode map (30_encoding.md R92, spec/opcode_table.json), written out apart from the decoder. -/
def patterns : List Pattern :=
  [⟨0xFFFF, 0x00E0⟩, ⟨0xFFFF, 0x00EE⟩, ⟨0xF000, 0x1000⟩, ⟨0xF000, 0x2000⟩, ⟨0xF000, 0x3000⟩,
   ⟨0xF000, 0x4000⟩, ⟨0xF00F, 0x5000⟩, ⟨0xF000, 0x6000⟩, ⟨0xF000, 0x7000⟩] ++
  [⟨0xF00F, 0x8000⟩, ⟨0xF00F, 0x8001⟩, ⟨0xF00F, 0x8002⟩, ⟨0xF00F, 0x8003⟩, ⟨0xF00F, 0x8004⟩,
   ⟨0xF00F, 0x8005⟩, ⟨0xF00F, 0x8006⟩, ⟨0xF00F, 0x800E⟩, ⟨0xF00F, 0x9000⟩, ⟨0xF000, 0xA000⟩] ++
  [⟨0xF000, 0xC000⟩, ⟨0xF000, 0xD000⟩, ⟨0xF0FF, 0xF007⟩, ⟨0xF0FF, 0xF015⟩, ⟨0xF0FF, 0xF018⟩,
   ⟨0xF0FF, 0xF01E⟩, ⟨0xF0FF, 0xF029⟩, ⟨0xF0FF, 0xF033⟩, ⟨0xF0FF, 0xF055⟩, ⟨0xF0FF, 0xF065⟩]

/-- The word is one of the 29 instructions (30_encoding.md R92). -/
def wordWellFormed (op : Word) : Bool := patterns.any (·.admits op)

/-- A font the core can be given: 80 bytes (20_memory.md R72). -/
def fontWellFormed (font : List Byte) : Bool := font.length == Config.fontSize

/-- A program image the core can be given: at most 3584 bytes (20_memory.md R74). -/
def imageWellFormed (image : List Byte) : Bool := image.length ≤ Config.maxImage

end Sys2Proof
end

