-- ==== Sys2Proof/Machine/Boot.lean ====
section
/-!
DEFINITION. What the environment does to the core: the host's load before the first step
(70_reset_and_hazards.md R272, R273) and the three events, step, tick and reset, in any interleaving
(60_exceptions.md R250 to R253, 70_reset_and_hazards.md R270, R276).
-/

namespace Sys2Proof.Machine

/-- The host's load of a block: refused as a whole where it leaves memory (70_reset_and_hazards.md R272,
00_scope.md R10). -/
def hostLoad (s : State) (addr : Nat) (bs : List Byte) : Option State :=
  if blockFits addr bs.length then some (s.setMem (writeBytes s.mem addr bs)) else none

/-- The launch state: reset, then `FONT` at 0x050 and the image at 0x200; none where the font has not 80 bytes or the
image is too long (70_reset_and_hazards.md R272, R273, 20_memory.md R74). -/
def launch (font image : List Byte) : Option State :=
  if fontWellFormed font then
    (hostLoad State.reset Config.fontBase font).bind (fun s => hostLoad s Config.programBase image)
  else none

/-- The events the environment delivers (60_exceptions.md R250, 70_reset_and_hazards.md R270). -/
inductive Event where
  /-- One instruction step (60_exceptions.md R251). -/
  | step
  /-- One frame tick (60_exceptions.md R253). -/
  | tick
  /-- Reset, in any condition of the core (70_reset_and_hazards.md R270). -/
  | reset
  deriving DecidableEq, Repr

/-- What one event does. Reset discards the whole state of the core (70_reset_and_hazards.md R270); the model's own two
counters run on, so that what the environment supplies after a reset is not what it supplied before (logs 2 and 3). -/
def deliver (e : Event) (s : State) : Result :=
  match e with
  | .step => instrStep s
  | .tick => .next s.tick
  | .reset => .next { State.reset with draws := s.draws, turns := s.turns }

/-- A sequence of events in any interleaving (60_exceptions.md R252). -/
def deliverAll : List Event → State → Result
  | [], s => .next s
  | e :: es, s =>
    match deliver e s with
    | .next t => deliverAll es t
    | .fault f => .fault f
    | .refused r => .refused r

end Sys2Proof.Machine
end

