-- ==== Sys2Proof/Machine/Ports.lean ====
section
/-!
DEFINITION. The output ports of the block, read-only views of the state (60_exceptions.md R257).
-/

namespace Sys2Proof.Machine

/-- Bit number `k` of the output `fb`: pixel `(k % 64, k / 64)` (60_exceptions.md R256, 10_state.md R38). -/
def State.fbBit (s : State) (k : Nat) : Bool := pixel s.fb (k % 64) (k / 64)

/-- `sound_on`: 1 while `ST` is not 0 (60_exceptions.md R255). -/
def State.soundOn (s : State) : Bool := s.st != 0

/-- The code of a fault (60_exceptions.md R230 to R234, R236). -/
def Fault.code : Fault → BitVec 3
  | .unknownOpcode _ => 1
  | .stackOverflow _ => 2
  | .stackUnderflow => 3
  | .outOfBoundsWrite _ => 4
  | .outOfBoundsRead _ => 5

/-- The value a fault carries; 0x0000 for `StackUnderflow` (60_exceptions.md R230 to R234). -/
def Fault.value : Fault → Word
  | .unknownOpcode op => op
  | .stackOverflow v => v
  | .stackUnderflow => 0x0000
  | .outOfBoundsWrite addr => addr
  | .outOfBoundsRead addr => addr

/-- `fault_kind`: 0 when there is none (60_exceptions.md R257). -/
def State.faultKind (s : State) : BitVec 3 :=
  match s.fault with
  | none => 0
  | some f => f.code

/-- `fault_value`: the value of the latched fault (60_exceptions.md R257, R230 to R234). What the port reads while there
is no fault the spec leaves open (R257 fixes only `fault_kind` there). DESIGN CHOICE: the model gives it no meaning, as it
gives none to `stack_top` of an empty stack. Log 15, safe. -/
def State.faultValue (s : State) : Option Word := s.fault.map Fault.value

/-- `stack_len` (10_state.md R30). -/
def State.stackLen (s : State) : BitVec 5 := BitVec.ofNat 5 s.sp.val

/-- `stack_top`: no meaning when the stack is empty (10_state.md R30, U16). -/
def State.stackTop (s : State) : Option Word :=
  match s.sp with
  | ⟨0, _⟩ => none
  | ⟨k + 1, h⟩ => some (s.stack[k]'(Nat.lt_of_succ_lt_succ h))

end Sys2Proof.Machine
end

