-- ==== Sys2Proof/Safety.lean ====
section
/-!
DEFINITION. What counts as a safe state and a safe run, and the words the claims use: the parts of the state a frame
keeps, the pixels a sprite covers.
-/

namespace Sys2Proof.Machine

/-- What every reachable state meets: memory is canonical, `I` is at most 0xFFF (10_state.md R25), `PC` is at most
0x1002 (R28), and every stack slot is at most 0x1000 (a call at 0xFFE, 40_control_flow.md R121). -/
abbrev State.Inv (s : State) : Prop :=
  Memory.wf s.mem ∧ s.i.toNat ≤ 0xFFF ∧ s.pc.toNat ≤ 0x1002 ∧
    ∀ k : Fin 16, (s.stack[k]).toNat ≤ 0x1000

/-- A safe state: nothing has gone wrong (60_exceptions.md R242). -/
abbrev State.Safe (s : State) : Prop := s.fault = none ∧ s.Inv

/-- A safe run of `k` steps: the machine's own step, ticks included, ends in a safe state. A fault is never left
(60_exceptions.md R242), so every state on the way is without a fault too. -/
def SafeRun (k : Nat) (s : State) : Prop :=
  match Sys2Proof.core.run k s with
  | .next t => t.Safe
  | .fault _ => False
  | .refused _ => False

/-! ## Parts of the state a frame keeps -/

/-- Every general register keeps its value. -/
def SameRegs (s t : State) : Prop := ∀ r, t.getV r = s.getV r

/-- Every byte of memory reads as before. -/
def SameMemory (s t : State) : Prop := ∀ a, readByte t.mem a = readByte s.mem a

/-- Every byte of memory outside the `n` bytes at `addr` reads as before. -/
def SameMemoryOutside (addr n : Nat) (s t : State) : Prop :=
  ∀ a, a < addr ∨ addr + n ≤ a → readByte t.mem a = readByte s.mem a

/-- The call stack keeps its count and every slot. -/
def SameStack (s t : State) : Prop := t.sp = s.sp ∧ t.stack = s.stack

/-- Both timers keep their values. -/
def SameTimers (s t : State) : Prop := t.dt = s.dt ∧ t.st = s.st

/-- The display keeps every pixel. -/
def SameDisplay (s t : State) : Prop := t.fb = s.fb

/-! ## The sprite of `DXYN` without loops -/

/-- The sprite with its top left corner at `(x0, y0)` has a 1 bit over pixel `(x, y)`: row `y - y0`, column `x - x0`,
one byte a row, bit 7 leftmost (43_display.md R191). -/
def spriteCovers (x0 y0 : Nat) (rows : List Byte) (x y : Nat) : Prop :=
  x0 ≤ x ∧ x < x0 + 8 ∧ y0 ≤ y ∧ ∃ row, rows[y - y0]? = some row ∧ row.getLsbD (7 - (x - x0)) = true

/-- The start column of `DXYN`: the low 6 bits of `V[X]` (43_display.md R193). -/
def startColumn (s : State) (x : Nibble) : Nat := (s.getV x).toNat % 64

/-- The start row of `DXYN`: the low 5 bits of `V[Y]` (43_display.md R193). -/
def startRow (s : State) (y : Nibble) : Nat := (s.getV y).toNat % 32

/-- The pixel `(x, y)` of the display lies under a 1 bit of the sprite that `DXYN` draws from `s`. -/
def drawCovers (s : State) (rx ry n : Nibble) (x y : Nat) : Prop :=
  spriteCovers (startColumn s rx) (startRow s ry) (readBytes s.mem s.i.toNat n.toNat) x y

end Sys2Proof.Machine
end

