-- ==== Sys2Proof/Certificates/Slice0/Obligations.lean ====
section
/-!
DEFINITION. The statements for the provers. Each docstring names the rule or section of spec/ it formalises; where a
statement rests on a decision the spec marks as its own, or on a choice of this model, the docstring says so.
-/

open Sys2Proof Sys2Proof.Machine

/-! ## Encoding (30_encoding.md) -/

/-- A few words written out bit by bit from the encodings of 30_encoding.md section 2, one per format and family,
and near misses that are no instruction. -/
def Obligations.DecodeOfSpecWords : Prop :=
  decode 0b0000000011100000#16 = .instr .cls00E0 ∧
  decode 0b0010001011010100#16 = .instr (.call2NNN 0x2D4) ∧
  decode 0b0011001000000001#16 = .instr (.se3XNN 0x2 0x01) ∧
  decode 0b1000101010110110#16 = .instr (.shr8XY6 0xA 0xB) ∧
  decode 0b1101101010111111#16 = .instr (.drwDXYN 0xA 0xB 0xF) ∧
  decode 0b1111000100011110#16 = .instr (.addFX1E 0x1) ∧
  decode 0b0101000100100001#16 = .unknownOpcode 0x5121 ∧
  decode 0b1110000110011110#16 = .unknownOpcode 0xE19E

/-- Decoding the word of an instruction gives the instruction back, for all 29 and every operand
(30_encoding.md sections 2 and 3). -/
def Obligations.DecodeOfEncode : Prop := ∀ i : Instr, decode (encode i) = .instr i

/-- A word has one meaning: the word of the instruction it decodes to is the word itself, no bit dropped
(30_encoding.md section 3: every bit is a fixed opcode bit or an operand bit). -/
def Obligations.EncodeOfDecode : Prop := ∀ (op : Word) (i : Instr), decode op = .instr i → encode i = op

/-- The decoder accepts a word as an instruction exactly where the row of the opcode map admits it, and no word is
admitted by two rows (30_encoding.md section 2). -/
def Obligations.DecodeFollowsOpcodeMap : Prop :=
  (∀ (op : Word) (p : Pattern), p ∈ patterns →
    (p.admits op = true ↔ ∃ i, decode op = .instr i ∧ i.pattern = p)) ∧
  (∀ (op : Word) (p q : Pattern), p ∈ patterns → q ∈ patterns →
    p.admits op = true → q.admits op = true → p = q)

/-- A word that is no instruction raises `UnknownOpcode` with the whole word; nothing changes but the advance of `PC`
and the latch, and the core stops (30_encoding.md section 3; that a step of the stopped core answers the same state is
the model's choice of log 4). -/
def Obligations.UnknownWordFaults : Prop :=
  ∀ (s : State) (op : Word), s.fault = none → fetch s = some op → wordWellFormed op = false →
    instrStep s = .next { s with pc := s.pc + 2, fault := some (.unknownOpcode op) } ∧
    ∀ t, instrStep s = .next t → instrStep t = .next t

/-! ## The step (00_scope.md R16, 30_encoding.md R90, 60_exceptions.md R250 to R253) -/

/-- 20_memory.md R62: fetch is big-endian; the byte at the lower address is the high byte, so `n1` and `n2` come from
`MEM[PC]` and `n3` and `n4` from `MEM[PC+1]`. -/
def Obligations.FetchIsBigEndian : Prop :=
  ∀ s : State, s.pc.toNat + 2 ≤ 4096 → ∃ op, fetch s = some op ∧
    op.toNat = 256 * (readByte s.mem s.pc.toNat).toNat + (readByte s.mem (s.pc.toNat + 1)).toNat ∧
    (fieldN1 op).toNat = (readByte s.mem s.pc.toNat).toNat / 16 ∧
    (fieldX op).toNat = (readByte s.mem s.pc.toNat).toNat % 16 ∧
    (fieldY op).toNat = (readByte s.mem (s.pc.toNat + 1)).toNat / 16 ∧
    (fieldN op).toNat = (readByte s.mem (s.pc.toNat + 1)).toNat % 16

/-- Where the two bytes at `PC` decode to `i`, one step is `exec i` with `PC` advanced by 2, followed by the frame
ticks the environment delivers before the next step (a free number, log 3) and the count of the step (the model's
own). Every `Instr` is well formed by its type. (00_scope.md section 4, 60_exceptions.md section 5.) -/
def Obligations.StepRunsDecodedInstruction : Prop :=
  ∀ (s t : State) (i : Instr), s.fault = none → s.pc.toNat + 2 ≤ 4096 →
    decodeBytes (readByte s.mem s.pc.toNat) (readByte s.mem (s.pc.toNat + 1)) = .instr i →
    exec i { s with pc := s.pc + 2 } = .next t →
    instrStep s = .next t ∧ step s = .next (t.ticks (Config.ticksAfter s.turns)).countTurn

/-- A fetch that needs a byte past 0xFFF faults with `PC` as its value and `PC` not advanced, and every other piece
of state unchanged (20_memory.md section 4; the spec's decision D8). -/
def Obligations.FetchOutsideMemoryFaults : Prop :=
  ∀ s : State, s.fault = none → 4096 < s.pc.toNat + 2 →
    instrStep s = .next { s with fault := some (.outOfBoundsRead s.pc) }

/-- A faulted core takes no instruction step and no tick: nothing changes until reset (60_exceptions.md section 3; the
spec's decisions D14 and D30, and the model's choice of log 4 that such a step answers the same state). -/
def Obligations.FaultedCoreIsFrozen : Prop :=
  ∀ s : State, s.fault ≠ none →
    instrStep s = .next s ∧ step s = .next s ∧ s.tick = s ∧ ∀ n, s.ticks n = s

/-- The machine's step answers a next state in every state: no instruction is left without a meaning, and a fault of
the core is a next state with the latch set (60_exceptions.md sections 1 and 3; the model's choice of log 4). -/
def Obligations.StepAnswersNextState : Prop := ∀ s : State, ∃ t, step s = .next t

/-- Faults are precise: an instruction that raises one changes nothing but the latch; `PC` already holds the address
plus 2 (60_exceptions.md section 3; the spec's decision D14). -/
def Obligations.ExecuteFaultsArePrecise : Prop :=
  ∀ (i : Instr) (s t : State) (f : Fault), s.fault = none → exec i s = .next t → t.fault = some f →
    t = { s with fault := some f }

/-- Which instruction can raise what in its execute phase, with the value of the fault (60_exceptions.md section 1,
values by the spec's decision D15): the other 23 raise nothing. -/
def Obligations.OnlyTheseInstructionsFault : Prop :=
  ∀ (i : Instr) (s t : State) (f : Fault), s.fault = none → exec i s = .next t → t.fault = some f →
    ((∃ nnn, i = .call2NNN nnn) ∧ f = .stackOverflow s.pc) ∨
    (i = .ret00EE ∧ f = .stackUnderflow) ∨
    ((∃ x, i = .ldFX33 x ∨ i = .ldFX55 x) ∧ f = .outOfBoundsWrite s.i) ∨
    (((∃ x, i = .ldFX65 x) ∨ ∃ x y n, i = .drwDXYN x y n) ∧ f = .outOfBoundsRead s.i)

/-! ## The frame tick (60_exceptions.md section 6) -/

/-- One tick of a core that is not faulted lowers each timer that is not 0 by 1, and touches nothing else; a faulted
core takes none (the spec's decision D30). -/
def Obligations.TickLowersBothTimers : Prop :=
  (∀ s : State, s.fault = none →
    s.tick = { s with dt := s.tick.dt, st := s.tick.st } ∧
    s.tick.dt.toNat = s.dt.toNat - 1 ∧ s.tick.st.toNat = s.st.toNat - 1) ∧
  (∀ s : State, s.fault ≠ none → s.tick = s)

/-- A timer holding `v` reads 0 after exactly `v` ticks and not before, and never wraps; `sound_on` is on until then
(60_exceptions.md section 6). -/
def Obligations.TimersStopAtZero : Prop :=
  ∀ (s : State) (n : Nat), s.fault = none →
    (State.tick^[n] s).dt.toNat = s.dt.toNat - n ∧ (State.tick^[n] s).st.toNat = s.st.toNat - n ∧
    ((State.tick^[n] s).soundOn = true ↔ n < s.st.toNat)

/-- The many ticks the step takes at once are that many single ticks, in every state (60_exceptions.md section 6). -/
def Obligations.TicksAreRepeatedTick : Prop := ∀ (s : State) (n : Nat), s.ticks n = State.tick^[n] s

/-! ## Control transfer (40_control_flow.md) -/

/-- 40_control_flow.md R121: return pops the return address into `PC`; the popped slot keeps its content; no flag; on
an empty stack it raises `StackUnderflow` with everything unchanged. -/
def Obligations.ReturnPopsIntoPc : Prop :=
  decode 0x00EE#16 = .instr .ret00EE ∧
  (∀ s : State, 0 < s.sp.val → ∃ t, exec .ret00EE s = .next t ∧
    t.sp.val + 1 = s.sp.val ∧ s.stack[t.sp.val]? = some t.pc ∧ t.stack = s.stack ∧
    t.getV vf = s.getV vf ∧ t.fault = s.fault) ∧
  (∀ s : State, s.sp.val = 0 → exec .ret00EE s = .next { s with fault := some .stackUnderflow })

/-- 40_control_flow.md R122: a jump sets `PC` to the 12-bit address, zero-extended; no flag, no fault. -/
def Obligations.JumpSetsPc : Prop :=
  ∀ (nnn : Addr12) (s : State), decode (formatA 0x1 nnn) = .instr (.jp1NNN nnn) ∧
    ∃ t, exec (.jp1NNN nnn) s = .next t ∧ t.pc.toNat = nnn.toNat ∧
      t.getV vf = s.getV vf ∧ t.fault = s.fault

/-- 40_control_flow.md R123: a call pushes the current `PC` and jumps; with 16 entries on the stack it raises
`StackOverflow` with that `PC`, pushes nothing and does not jump. -/
def Obligations.CallPushesAndJumps : Prop :=
  ∀ (nnn : Addr12) (s : State), decode (formatA 0x2 nnn) = .instr (.call2NNN nnn) ∧
    (s.sp.val < 16 → ∃ t, exec (.call2NNN nnn) s = .next t ∧
      t.sp.val = s.sp.val + 1 ∧ t.stack[s.sp.val]? = some s.pc ∧
      (∀ k, k ≠ s.sp.val → t.stack[k]? = s.stack[k]?) ∧ t.pc.toNat = nnn.toNat ∧
      t.getV vf = s.getV vf ∧ t.fault = s.fault) ∧
    (s.sp.val = 16 → exec (.call2NNN nnn) s = .next { s with fault := some (.stackOverflow s.pc) })

/-- A return right after a call, wherever it stands and whatever else changed but the stack, restores the `PC` after
the call and the number of entries (40_control_flow.md sections 2 and 3). -/
def Obligations.ReturnUndoesCall : Prop :=
  ∀ (nnn : Addr12) (s t u : State), s.sp.val < 16 → exec (.call2NNN nnn) s = .next t → SameStack t u →
    ∃ w, exec .ret00EE u = .next w ∧ w.pc = s.pc ∧ w.sp = s.sp

/-- 40_control_flow.md R124 to R127: the four skips step over two bytes exactly where their condition holds, on the
full 8 bits; no flag, no fault. -/
def Obligations.SkipsFollowTheirConditions : Prop :=
  ∀ (x y : Nibble) (nn : Byte) (s : State),
    decode (formatXI 0x3 x nn) = .instr (.se3XNN x nn) ∧
    decode (formatXI 0x4 x nn) = .instr (.sne4XNN x nn) ∧
    decode (formatXYN 0x5 x y 0x0) = .instr (.se5XY0 x y) ∧
    decode (formatXYN 0x9 x y 0x0) = .instr (.sne9XY0 x y) ∧
    (∃ t, exec (.se3XNN x nn) s = .next t ∧ t.pc = (if s.getV x = nn then s.pc + 2 else s.pc) ∧
      t.getV vf = s.getV vf ∧ t.fault = s.fault) ∧
    (∃ t, exec (.sne4XNN x nn) s = .next t ∧ t.pc = (if s.getV x = nn then s.pc else s.pc + 2) ∧
      t.getV vf = s.getV vf ∧ t.fault = s.fault) ∧
    (∃ t, exec (.se5XY0 x y) s = .next t ∧ t.pc = (if s.getV x = s.getV y then s.pc + 2 else s.pc) ∧
      t.getV vf = s.getV vf ∧ t.fault = s.fault) ∧
    (∃ t, exec (.sne9XY0 x y) s = .next t ∧ t.pc = (if s.getV x = s.getV y then s.pc else s.pc + 2) ∧
      t.getV vf = s.getV vf ∧ t.fault = s.fault)

/-- A step at a jump to its own address changes nothing but the timers, which go on counting down, and the model's own
count of steps (40_control_flow.md section 3; the spec's decision D25). -/
def Obligations.SelfJumpChangesOnlyTimers : Prop :=
  ∀ (s : State) (nnn : Addr12), s.fault = none → s.pc.toNat = nnn.toNat → s.pc.toNat + 2 ≤ 4096 →
    decodeBytes (readByte s.mem s.pc.toNat) (readByte s.mem (s.pc.toNat + 1)) = .instr (.jp1NNN nnn) →
    instrStep s = .next s ∧ step s = .next (s.ticks (Config.ticksAfter s.turns)).countTurn

/-! ## Load, arithmetic, logic, shift (41_alu.md) -/

/-- 41_alu.md R140: load immediate; the flag register changes only as the destination; no fault. -/
def Obligations.LoadImmediateSetsRegister : Prop :=
  ∀ (x : Nibble) (nn : Byte) (s : State), decode (formatXI 0x6 x nn) = .instr (.ld6XNN x nn) ∧
    ∃ t, exec (.ld6XNN x nn) s = .next t ∧ t.getV x = nn ∧
      (x ≠ vf → t.getV vf = s.getV vf) ∧ t.fault = s.fault

/-- 41_alu.md R141: add immediate modulo 256; no carry goes anywhere. -/
def Obligations.AddImmediateWrapsWithoutFlag : Prop :=
  ∀ (x : Nibble) (nn : Byte) (s : State), decode (formatXI 0x7 x nn) = .instr (.add7XNN x nn) ∧
    ∃ t, exec (.add7XNN x nn) s = .next t ∧ (t.getV x).toNat = ((s.getV x).toNat + nn.toNat) % 256 ∧
      (x ≠ vf → t.getV vf = s.getV vf) ∧ t.fault = s.fault

/-- 41_alu.md R142: copy; the source is unchanged. -/
def Obligations.CopySetsRegister : Prop :=
  ∀ (x y : Nibble) (s : State), decode (formatXYN 0x8 x y 0x0) = .instr (.ld8XY0 x y) ∧
    ∃ t, exec (.ld8XY0 x y) s = .next t ∧ t.getV x = s.getV y ∧ t.getV y = s.getV y ∧
      (x ≠ vf → t.getV vf = s.getV vf) ∧ t.fault = s.fault

/-- OR, AND and XOR bit by bit, written to `V[X]` (41_alu.md section 2). That `VF` is left alone is the spec's decision
D4 and stands in the frame statement, not here. -/
def Obligations.LogicWorksBitByBit : Prop :=
  ∀ (x y : Nibble) (s : State),
    (∃ t, exec (.or8XY1 x y) s = .next t ∧ t.fault = s.fault ∧
      ∀ k, (t.getV x).getLsbD k = ((s.getV x).getLsbD k || (s.getV y).getLsbD k)) ∧
    (∃ t, exec (.and8XY2 x y) s = .next t ∧ t.fault = s.fault ∧
      ∀ k, (t.getV x).getLsbD k = ((s.getV x).getLsbD k && (s.getV y).getLsbD k)) ∧
    (∃ t, exec (.xor8XY3 x y) s = .next t ∧ t.fault = s.fault ∧
      ∀ k, (t.getV x).getLsbD k = ((s.getV x).getLsbD k ^^ (s.getV y).getLsbD k))

/-- 41_alu.md R150: add with carry. The flag is 1 exactly where the unbounded sum exceeds 255, from the operands before
the instruction; with `X = 15` the flag is what stays. -/
def Obligations.AddSetsSumAndCarry : Prop :=
  ∀ (x y : Nibble) (s : State), decode (formatXYN 0x8 x y 0x4) = .instr (.add8XY4 x y) ∧
    ∃ t, exec (.add8XY4 x y) s = .next t ∧
      (x ≠ vf → (t.getV x).toNat = ((s.getV x).toNat + (s.getV y).toNat) % 256) ∧
      t.getV vf = (if 255 < (s.getV x).toNat + (s.getV y).toNat then 1 else 0) ∧ t.fault = s.fault

/-- 41_alu.md R151: subtract modulo 256. The flag is 1 exactly where `V[X] >= V[Y]` before the instruction; with
`X = 15` the flag is what stays. -/
def Obligations.SubtractSetsDifferenceAndNoBorrow : Prop :=
  ∀ (x y : Nibble) (s : State), decode (formatXYN 0x8 x y 0x5) = .instr (.sub8XY5 x y) ∧
    ∃ t, exec (.sub8XY5 x y) s = .next t ∧
      (x ≠ vf → (t.getV x).toNat = ((s.getV x).toNat + 256 - (s.getV y).toNat) % 256) ∧
      t.getV vf = (if (s.getV y).toNat ≤ (s.getV x).toNat then 1 else 0) ∧ t.fault = s.fault

/-- Shift right by one into `V[X]` (the spec's decision D5), a zero entering at bit 7; the flag is bit 0 of the source,
which is `V[Y]` under `COSMAC_VIP` and `V[X]` otherwise (41_alu.md section 4). For every strap: `Config.impl` has no
body (log 1). -/
def Obligations.ShiftRightFollowsStrap : Prop :=
  ∀ (x y : Nibble) (s : State), decode (formatXYN 0x8 x y 0x6) = .instr (.shr8XY6 x y) ∧
    ∃ t, exec (.shr8XY6 x y) s = .next t ∧ t.fault = s.fault ∧
      ∃ src, src = (if Config.impl = .cosmacVip then s.getV y else s.getV x) ∧
        (x ≠ vf → (t.getV x).toNat = src.toNat / 2) ∧ (t.getV vf).toNat = src.toNat % 2

/-- Shift left by one into `V[X]` (the spec's decision D5), a zero entering at bit 0; the flag is bit 7 of the source,
which is `V[Y]` under `COSMAC_VIP` and `V[X]` otherwise (41_alu.md section 4). For every strap (log 1). -/
def Obligations.ShiftLeftFollowsStrap : Prop :=
  ∀ (x y : Nibble) (s : State), decode (formatXYN 0x8 x y 0xE) = .instr (.shl8XYE x y) ∧
    ∃ t, exec (.shl8XYE x y) s = .next t ∧ t.fault = s.fault ∧
      ∃ src, src = (if Config.impl = .cosmacVip then s.getV y else s.getV x) ∧
        (x ≠ vf → (t.getV x).toNat = src.toNat * 2 % 256) ∧ (t.getV vf).toNat = src.toNat / 128

/-! ## Index register, load and store (42_index_memory.md) -/

/-- 42_index_memory.md R170: load index, zero-extended; no flag, no fault. -/
def Obligations.LoadIndexSetsI : Prop :=
  ∀ (nnn : Addr12) (s : State), decode (formatA 0xA nnn) = .instr (.ldANNN nnn) ∧
    ∃ t, exec (.ldANNN nnn) s = .next t ∧ t.i.toNat = nnn.toNat ∧
      t.getV vf = s.getV vf ∧ t.fault = s.fault

/-- Add register to index: the unbounded sum, or 1 where it exceeds 0xFFF, under every strap (42_index_memory.md
section 1; the spec's decision D12). -/
def Obligations.AddIndexOverflowsToOne : Prop :=
  ∀ (x : Nibble) (s : State), decode (formatXI 0xF x 0x1E) = .instr (.addFX1E x) ∧
    ∃ t, exec (.addFX1E x) s = .next t ∧ t.fault = s.fault ∧
      t.i.toNat = (if 0xFFF < s.i.toNat + (s.getV x).toNat then 1 else s.i.toNat + (s.getV x).toNat)

/-- 42_index_memory.md R172: the glyph address of the low nibble, `0x050 + (V[X] & 0xF) * 5`; no flag, no fault, and
no memory is read: two states with the same `V[X]` get the same `I`. -/
def Obligations.GlyphAddressSetsI : Prop :=
  ∀ (x : Nibble) (s : State), decode (formatXI 0xF x 0x29) = .instr (.ldFX29 x) ∧
    ∃ t, exec (.ldFX29 x) s = .next t ∧ t.i.toNat = 0x050 + (s.getV x).toNat % 16 * 5 ∧
      t.getV vf = s.getV vf ∧ t.fault = s.fault

/-- 42_index_memory.md R173: the three decimal digits of `V[X]` at `I`, `I+1`, `I+2`, hundreds first, `I` unchanged;
where `I + 3 > 4096` it raises `OutOfBoundsWrite(I)` and writes no byte. -/
def Obligations.DecimalDigitsAreStored : Prop :=
  ∀ (x : Nibble) (s : State), decode (formatXI 0xF x 0x33) = .instr (.ldFX33 x) ∧
    (s.i.toNat + 3 ≤ 4096 → ∃ t, exec (.ldFX33 x) s = .next t ∧
      (readByte t.mem s.i.toNat).toNat = (s.getV x).toNat / 100 ∧
      (readByte t.mem (s.i.toNat + 1)).toNat = (s.getV x).toNat / 10 % 10 ∧
      (readByte t.mem (s.i.toNat + 2)).toNat = (s.getV x).toNat % 10 ∧
      t.i = s.i ∧ t.getV vf = s.getV vf ∧ t.fault = s.fault) ∧
    (4096 < s.i.toNat + 3 → exec (.ldFX33 x) s = .next { s with fault := some (.outOfBoundsWrite s.i) })

/-- `V[0]` to `V[X]` are stored at `I`, `I+1`, ..; where the block leaves memory nothing is written and
`OutOfBoundsWrite(I)` is raised (42_index_memory.md section 2; the spec's decision D22). -/
def Obligations.StoreRegistersWritesBlock : Prop :=
  ∀ (x : Nibble) (s : State), decode (formatXI 0xF x 0x55) = .instr (.ldFX55 x) ∧
    (s.i.toNat + x.toNat + 1 ≤ 4096 → ∃ t, exec (.ldFX55 x) s = .next t ∧ t.fault = s.fault ∧
      ∀ r : Nibble, r.toNat ≤ x.toNat → readByte t.mem (s.i.toNat + r.toNat) = s.getV r) ∧
    (4096 < s.i.toNat + x.toNat + 1 →
      exec (.ldFX55 x) s = .next { s with fault := some (.outOfBoundsWrite s.i) })

/-- `V[0]` to `V[X]` are loaded from `I`, `I+1`, ..; where the block leaves memory no register changes and
`OutOfBoundsRead(I)` is raised (42_index_memory.md section 2; the spec's decision D8). -/
def Obligations.LoadRegistersReadsBlock : Prop :=
  ∀ (x : Nibble) (s : State), decode (formatXI 0xF x 0x65) = .instr (.ldFX65 x) ∧
    (s.i.toNat + x.toNat + 1 ≤ 4096 → ∃ t, exec (.ldFX65 x) s = .next t ∧ t.fault = s.fault ∧
      ∀ r : Nibble, r.toNat ≤ x.toNat → t.getV r = readByte s.mem (s.i.toNat + r.toNat)) ∧
    (4096 < s.i.toNat + x.toNat + 1 →
      exec (.ldFX65 x) s = .next { s with fault := some (.outOfBoundsRead s.i) })

/-- A block stored and loaded back, from any state with the same memory and index, restores the registers of the
block (42_index_memory.md section 2). -/
def Obligations.LoadUndoesStore : Prop :=
  ∀ (x : Nibble) (s t u : State), s.i.toNat + x.toNat + 1 ≤ 4096 → exec (.ldFX55 x) s = .next t →
    SameMemory t u → u.i = s.i →
    ∃ w, exec (.ldFX65 x) u = .next w ∧ ∀ r : Nibble, r.toNat ≤ x.toNat → w.getV r = s.getV r

/-- Two neighbouring registers stored by `FX55` are the word a later fetch at that address reads, at once
(20_memory.md section 7; the spec's decision D27). -/
def Obligations.StoredBytesAreFetched : Prop :=
  ∀ (x r q : Nibble) (s t : State), s.i.toNat + x.toNat + 1 ≤ 4096 → exec (.ldFX55 x) s = .next t →
    q.toNat = r.toNat + 1 → q.toNat ≤ x.toNat →
    fetch (t.setPc (BitVec.ofNat 16 (s.i.toNat + r.toNat))) = some (wordOfBytes (s.getV r) (s.getV q))

/-! ## Display (43_display.md) -/

/-- 43_display.md R190: clear turns every pixel off; no flag, no fault, and no memory is touched. -/
def Obligations.ClearTurnsEveryPixelOff : Prop :=
  decode 0x00E0#16 = .instr .cls00E0 ∧
  ∀ s : State, ∃ t, exec .cls00E0 s = .next t ∧ (∀ x y, x ≤ 63 → y ≤ 31 → pixel t.fb x y = false) ∧
    t.getV vf = s.getV vf ∧ t.fault = s.fault ∧ SameMemory s t

/-- The draw without loops: each display pixel under a 1 bit of the sprite is flipped and no other; the flag is 1
exactly where such a pixel was on; the start position wraps and the body is clipped; where the sprite leaves memory
nothing changes and `OutOfBoundsRead(I)` is raised; a sprite of no rows never faults (43_display.md section 2; the
spec's decisions D6, D7, D8). -/
def Obligations.DrawFlipsCoveredPixels : Prop :=
  ∀ (rx ry n : Nibble) (s : State), decode (formatXYN 0xD rx ry n) = .instr (.drwDXYN rx ry n) ∧
    (n.toNat = 0 ∨ s.i.toNat + n.toNat ≤ 4096 → ∃ t, exec (.drwDXYN rx ry n) s = .next t ∧ t.fault = s.fault ∧
      (∀ x y, x ≤ 63 → y ≤ 31 →
        (pixel t.fb x y ≠ pixel s.fb x y ↔ drawCovers s rx ry n x y)) ∧
      (t.getV vf = 0 ∨ t.getV vf = 1) ∧
      (t.getV vf = 1 ↔
        ∃ x y, x ≤ 63 ∧ y ≤ 31 ∧ drawCovers s rx ry n x y ∧ pixel s.fb x y = true)) ∧
    (1 ≤ n.toNat → 4096 < s.i.toNat + n.toNat →
      exec (.drwDXYN rx ry n) s = .next { s with fault := some (.outOfBoundsRead s.i) })

/-- The same sprite drawn again at the same place restores every pixel; the second draw sets the flag exactly where
the first turned a pixel on (43_display.md section 2). -/
def Obligations.DrawTwiceRestoresDisplay : Prop :=
  ∀ (rx ry n : Nibble) (s t u : State), (n.toNat = 0 ∨ s.i.toNat + n.toNat ≤ 4096) →
    exec (.drwDXYN rx ry n) s = .next t → u.fb = t.fb → SameMemory s u → u.i = s.i →
    u.getV rx = s.getV rx → u.getV ry = s.getV ry →
    ∃ w, exec (.drwDXYN rx ry n) u = .next w ∧
      (∀ x y, x ≤ 63 → y ≤ 31 → pixel w.fb x y = pixel s.fb x y) ∧
      (w.getV vf = 1 ↔
        ∃ x y, x ≤ 63 ∧ y ≤ 31 ∧ drawCovers s rx ry n x y ∧ pixel s.fb x y = false)

/-! ## Random and timers (44_timers_random.md) -/

/-- `V[X]` is the environment's byte and `NN`, whatever that byte is: every bit that is 0 in `NN` is 0 in the result, and
the old `V[X]` is not an input (44_timers_random.md section 1; that the free byte is `Config.rnd`, which has no body, at
the number of the draw is the model's choice of log 2). -/
def Obligations.RandomIsMaskedByImmediate : Prop :=
  ∀ (x : Nibble) (nn : Byte) (s : State), decode (formatXI 0xC x nn) = .instr (.rndCXNN x nn) ∧
    ∃ t, exec (.rndCXNN x nn) s = .next t ∧ t.getV x = (Config.rnd s.draws &&& nn) ∧
      (∀ k, nn.getLsbD k = false → (t.getV x).getLsbD k = false) ∧
      (x ≠ vf → t.getV vf = s.getV vf) ∧ t.fault = s.fault

/-- `FX07` reads the delay timer, which it leaves alone; `FX15` writes the delay timer and `FX18` the sound timer from
`V[X]`, which they leave alone (44_timers_random.md section 2; which code does what is the spec's decision D11). -/
def Obligations.TimerAccess : Prop :=
  ∀ (x : Nibble) (s : State),
    decode (formatXI 0xF x 0x07) = .instr (.ldFX07 x) ∧
    decode (formatXI 0xF x 0x15) = .instr (.ldFX15 x) ∧
    decode (formatXI 0xF x 0x18) = .instr (.ldFX18 x) ∧
    (∃ t, exec (.ldFX07 x) s = .next t ∧ t.getV x = s.dt ∧ t.dt = s.dt ∧ t.fault = s.fault) ∧
    (∃ t, exec (.ldFX15 x) s = .next t ∧ t.dt = s.getV x ∧ t.getV x = s.getV x ∧ t.fault = s.fault) ∧
    (∃ t, exec (.ldFX18 x) s = .next t ∧ t.st = s.getV x ∧ t.getV x = s.getV x ∧
      (t.soundOn = true ↔ s.getV x ≠ 0) ∧ t.fault = s.fault)

/-! ## Frames: what an instruction leaves alone (00_scope.md section 4, the closed reading; the spec's decision D4) -/

/-- `6XNN`, `7XNN`, `8XY0`, `8XY1`, `8XY2`, `8XY3`, `FX07`: every register but `V[X]`, and every other piece of state. -/
def Obligations.RegisterOperationsFrame : Prop :=
  ∀ (x y : Nibble) (nn : Byte) (s t : State),
    ∀ i ∈ [Instr.ld6XNN x nn, .add7XNN x nn, .ld8XY0 x y, .or8XY1 x y, .and8XY2 x y, .xor8XY3 x y, .ldFX07 x],
      exec i s = .next t →
      (∀ r, r ≠ x → t.getV r = s.getV r) ∧ t.i = s.i ∧ t.pc = s.pc ∧ SameStack s t ∧ SameTimers s t ∧
      SameDisplay s t ∧ SameMemory s t ∧ t.fault = s.fault ∧ t.draws = s.draws ∧ t.turns = s.turns

/-- `8XY4`, `8XY5`, `8XY6`, `8XYE`: every register but `V[X]` and `V[15]`, and every other piece of state. -/
def Obligations.FlagOperationsFrame : Prop :=
  ∀ (x y : Nibble) (s t : State),
    ∀ i ∈ [Instr.add8XY4 x y, .sub8XY5 x y, .shr8XY6 x y, .shl8XYE x y],
      exec i s = .next t →
      (∀ r, r ≠ x → r ≠ vf → t.getV r = s.getV r) ∧ t.i = s.i ∧ t.pc = s.pc ∧ SameStack s t ∧ SameTimers s t ∧
      SameDisplay s t ∧ SameMemory s t ∧ t.fault = s.fault ∧ t.draws = s.draws ∧ t.turns = s.turns

/-- `00EE`, `1NNN`, `2NNN` and the skips: every register, the index, the timers, the display and memory; the jump and
the skips leave the stack alone too, the return every slot, the call every slot but the one pushed. -/
def Obligations.ControlTransferFrame : Prop :=
  ∀ (x y : Nibble) (nn : Byte) (nnn : Addr12) (s t : State),
    (∀ i ∈ [Instr.ret00EE, .jp1NNN nnn, .call2NNN nnn, .se3XNN x nn, .sne4XNN x nn, .se5XY0 x y, .sne9XY0 x y],
      exec i s = .next t →
      SameRegs s t ∧ t.i = s.i ∧ SameTimers s t ∧ SameDisplay s t ∧ SameMemory s t ∧
      t.draws = s.draws ∧ t.turns = s.turns) ∧
    (∀ i ∈ [Instr.jp1NNN nnn, .se3XNN x nn, .sne4XNN x nn, .se5XY0 x y, .sne9XY0 x y],
      exec i s = .next t → SameStack s t ∧ t.fault = s.fault) ∧
    (exec .ret00EE s = .next t → t.stack = s.stack) ∧
    (exec (.call2NNN nnn) s = .next t → ∀ k, k ≠ s.sp.val → t.stack[k]? = s.stack[k]?)

/-- `ANNN`, `FX1E`, `FX29`: everything but `I`. -/
def Obligations.IndexOperationsFrame : Prop :=
  ∀ (x : Nibble) (nnn : Addr12) (s t : State),
    ∀ i ∈ [Instr.ldANNN nnn, .addFX1E x, .ldFX29 x],
      exec i s = .next t →
      SameRegs s t ∧ t.pc = s.pc ∧ SameStack s t ∧ SameTimers s t ∧ SameDisplay s t ∧ SameMemory s t ∧
      t.fault = s.fault ∧ t.draws = s.draws ∧ t.turns = s.turns

/-- `FX33` and `FX55`: everything but the bytes stored, which are the 3, or the `X + 1`, bytes at `I`, and the latch
where the block leaves memory; `I` itself is unchanged. -/
def Obligations.StoreFrame : Prop :=
  ∀ (x : Nibble) (s t : State),
    (exec (.ldFX33 x) s = .next t → SameMemoryOutside s.i.toNat 3 s t) ∧
    (exec (.ldFX55 x) s = .next t → SameMemoryOutside s.i.toNat (x.toNat + 1) s t) ∧
    (∀ i ∈ [Instr.ldFX33 x, .ldFX55 x], exec i s = .next t →
      SameRegs s t ∧ t.i = s.i ∧ t.pc = s.pc ∧ SameStack s t ∧ SameTimers s t ∧ SameDisplay s t ∧
      t.draws = s.draws ∧ t.turns = s.turns)

/-- `FX65`: the registers above `X`, `I`, memory and every other piece of state, but the latch where the block leaves
memory. -/
def Obligations.LoadRegistersFrame : Prop :=
  ∀ (x : Nibble) (s t : State), exec (.ldFX65 x) s = .next t →
    (∀ r : Nibble, x.toNat < r.toNat → t.getV r = s.getV r) ∧ t.i = s.i ∧ t.pc = s.pc ∧ SameStack s t ∧
    SameTimers s t ∧ SameDisplay s t ∧ SameMemory s t ∧ t.draws = s.draws ∧ t.turns = s.turns

/-- `00E0` and `DXYN`: every register (but `V[15]` for `DXYN`), `I`, memory and every other piece of state but the
display, and the latch where the sprite leaves memory. -/
def Obligations.DisplayFrame : Prop :=
  ∀ (x y n : Nibble) (s t : State),
    (exec .cls00E0 s = .next t → SameRegs s t ∧ t.fault = s.fault) ∧
    (exec (.drwDXYN x y n) s = .next t → ∀ r, r ≠ vf → t.getV r = s.getV r) ∧
    (∀ i ∈ [Instr.cls00E0, .drwDXYN x y n], exec i s = .next t →
      t.i = s.i ∧ t.pc = s.pc ∧ SameStack s t ∧ SameTimers s t ∧ SameMemory s t ∧
      t.draws = s.draws ∧ t.turns = s.turns)

/-- `FX15` and `FX18`: everything but the one timer each writes. -/
def Obligations.TimerWriteFrame : Prop :=
  ∀ (x : Nibble) (s t : State),
    (exec (.ldFX15 x) s = .next t → t.st = s.st) ∧
    (exec (.ldFX18 x) s = .next t → t.dt = s.dt) ∧
    (∀ i ∈ [Instr.ldFX15 x, .ldFX18 x], exec i s = .next t →
      SameRegs s t ∧ t.i = s.i ∧ t.pc = s.pc ∧ SameStack s t ∧ SameDisplay s t ∧ SameMemory s t ∧
      t.fault = s.fault ∧ t.draws = s.draws ∧ t.turns = s.turns)

/-- `CXNN`: everything but `V[X]` and the model's own count of draws, which goes up by one, so that the next draw is a
fresh free value (log 2). -/
def Obligations.RandomFrame : Prop :=
  ∀ (x : Nibble) (nn : Byte) (s t : State), exec (.rndCXNN x nn) s = .next t →
    (∀ r, r ≠ x → t.getV r = s.getV r) ∧ t.i = s.i ∧ t.pc = s.pc ∧ SameStack s t ∧ SameTimers s t ∧
    SameDisplay s t ∧ SameMemory s t ∧ t.fault = s.fault ∧ t.draws = s.draws + 1 ∧ t.turns = s.turns

/-! ## Whole-machine rules -/

/-- Over all 29 instructions: only `ANNN`, `FX1E`, `FX29` change `I`; only `FX15` changes `DT` and only `FX18` changes
`ST`; only `00E0` and `DXYN` change the display; only `2NNN` and `00EE` change the stack; only `FX33` and `FX55` change
a byte of memory; only `CXNN` draws (10_state.md sections 3, 5, 6, 7 and 20_memory.md section 5). -/
def Obligations.WritersOfEachState : Prop :=
  ∀ (i : Instr) (s t : State), exec i s = .next t →
    (t.i ≠ s.i → (∃ nnn, i = .ldANNN nnn) ∨ ∃ x, i = .addFX1E x ∨ i = .ldFX29 x) ∧
    (t.dt ≠ s.dt → ∃ x, i = .ldFX15 x) ∧
    (t.st ≠ s.st → ∃ x, i = .ldFX18 x) ∧
    (t.fb ≠ s.fb → i = .cls00E0 ∨ ∃ x y n, i = .drwDXYN x y n) ∧
    (¬ SameStack s t → i = .ret00EE ∨ ∃ nnn, i = .call2NNN nnn) ∧
    (¬ SameMemory s t → ∃ x, i = .ldFX33 x ∨ i = .ldFX55 x) ∧
    (t.draws ≠ s.draws → ∃ x nn, i = .rndCXNN x nn)

/-- The output ports show the state: the pixel at bit `x + 64*y`, `sound_on` while `ST` is not 0, the length of the stack
and its top entry where there is one, and each of the five faults by its own code and value, code 0 exactly where there is
no fault (60_exceptions.md sections 1, 6 and 7, 10_state.md sections 5 and 7; ports, codes and values, the sound signal
and the stack views are the spec's decisions D16, D15, D26 and D31). What `fault_value` reads without a fault is open
(log 15) and not stated. -/
def Obligations.PortsShowState : Prop :=
  ∀ s : State,
    (∀ x y, x ≤ 63 → y ≤ 31 → s.fbBit (x + 64 * y) = pixel s.fb x y) ∧
    s.stackLen.toNat = s.sp.val ∧
    (s.sp.val = 0 → s.stackTop = none) ∧ (0 < s.sp.val → s.stackTop = s.stack[s.sp.val - 1]?) ∧
    (s.soundOn = true ↔ s.st ≠ 0) ∧
    (s.faultKind = 0 ↔ s.fault = none) ∧
    (∀ op, s.fault = some (.unknownOpcode op) → s.faultKind = 1 ∧ s.faultValue = some op) ∧
    (∀ v, s.fault = some (.stackOverflow v) → s.faultKind = 2 ∧ s.faultValue = some v) ∧
    (s.fault = some .stackUnderflow → s.faultKind = 3 ∧ s.faultValue = some 0x0000) ∧
    (∀ addr, s.fault = some (.outOfBoundsWrite addr) → s.faultKind = 4 ∧ s.faultValue = some addr) ∧
    (∀ addr, s.fault = some (.outOfBoundsRead addr) → s.faultKind = 5 ∧ s.faultValue = some addr)

/-- Memory in its canonical form is determined by what it reads: two such memories that read alike at every address
are equal data (the model's representation, log 10). -/
def Obligations.MemoryFormIsCanonical : Prop :=
  ∀ m m' : Memory, Memory.wf m → Memory.wf m' → (∀ a, readByte m a = readByte m' a) → m = m'

/-! ## Reset, launch and the invariant (10_state.md section 9, 70_reset_and_hazards.md) -/

/-- 10_state.md R40 and R45: after reset `PC` is 0x0200 and every pixel is off. -/
def Obligations.ResetEntryAndDisplay : Prop :=
  State.reset.pc = 0x0200 ∧ ∀ x y, x ≤ 63 → y ≤ 31 → pixel State.reset.fb x y = false

/-- Reset in any condition of the core leaves the registers, `I`, the stack, the timers and every byte of memory zero,
the display clear, `PC` at 0x200 and no fault (70_reset_and_hazards.md section 1; the zeros of the registers, `I`, the
stack and the timers are the spec's decision D2, log 8). -/
def Obligations.ResetClearsTheRest : Prop :=
  ∀ s : State, ∃ t, deliver .reset s = .next t ∧
    (∀ r, t.getV r = 0) ∧ t.i = 0 ∧ t.sp.val = 0 ∧ (∀ k : Fin 16, t.stack[k] = 0) ∧ t.dt = 0 ∧ t.st = 0 ∧
    t.fault = none ∧ t.soundOn = false ∧ t.pc = 0x0200 ∧ (∀ a, readByte t.mem a = 0) ∧
    ∀ x y, x ≤ 63 → y ≤ 31 → pixel t.fb x y = false

/-- The launch state: reset, with the 80 bytes of the font at 0x050 and the image at 0x200 and zero elsewhere; there
is one exactly where the font has 80 bytes and the image fits; it meets the invariant (70_reset_and_hazards.md
section 2, 20_memory.md section 6). -/
def Obligations.LaunchLoadsFontAndImage : Prop :=
  ∀ font image : List Byte,
    ((launch font image).isSome = (fontWellFormed font && imageWellFormed image)) ∧
    ∀ s, launch font image = some s → s = { State.reset with mem := s.mem } ∧ s.Inv ∧
      ∀ a, readByte s.mem a =
        (if 0x050 ≤ a ∧ a < 0x0A0 then font[a - 0x050]?.getD 0
         else if 0x200 ≤ a then image[a - 0x200]?.getD 0 else 0)

/-- The reset state meets the invariant. -/
def Obligations.ResetMeetsInvariant : Prop := State.reset.Inv

/-- Every step keeps the invariant, from every state that meets it: memory stays canonical, `I` at most 0xFFF, `PC` at
most 0x1002, every stack slot at most 0x1000 (10_state.md sections 3, 4 and 5). -/
def Obligations.StepKeepsInvariant : Prop :=
  ∀ s t : State, s.Inv → step s = .next t → t.Inv

/-- Every sequence of events, steps, ticks and resets in any interleaving, from every state that meets the invariant,
answers a state that meets it (60_exceptions.md section 5; the spec's decision D18). -/
def Obligations.EveryInterleavingKeepsInvariant : Prop :=
  ∀ (es : List Event) (s : State), s.Inv → ∃ t, deliverAll es s = .next t ∧ t.Inv
end

