-- ==== Sys2Proof/Laws/Decode.lean ====
section
/-!
SUPPORT. The words of the formats as numbers (30_encoding.md R91, R92), the fields of a word as numbers, the fields of a
word built from its format, a row of the opcode map nibble by nibble, and the two bytes of a word (20_memory.md R62).
-/

namespace Sys2Proof

/-! ### Words and fields as numbers -/

theorem formatA_toNat (n1 : Nibble) (nnn : Addr12) : (formatA n1 nnn).toNat = n1.toNat * 4096 + nnn.toNat := by
  show (n1 ++ nnn).toNat = _
  rw [BitVec.toNat_append, ← Nat.shiftLeft_add_eq_or_of_lt nnn.isLt, Nat.shiftLeft_eq]

theorem formatXI_toNat (n1 x : Nibble) (nn : Byte) :
    (formatXI n1 x nn).toNat = n1.toNat * 4096 + x.toNat * 256 + nn.toNat := by
  show (n1 ++ x ++ nn).toNat = _
  rw [BitVec.toNat_append, ← Nat.shiftLeft_add_eq_or_of_lt nn.isLt, Nat.shiftLeft_eq,
    BitVec.toNat_append, ← Nat.shiftLeft_add_eq_or_of_lt x.isLt, Nat.shiftLeft_eq]
  omega

theorem formatXYN_toNat (n1 x y n4 : Nibble) :
    (formatXYN n1 x y n4).toNat = n1.toNat * 4096 + x.toNat * 256 + y.toNat * 16 + n4.toNat := by
  show (n1 ++ x ++ y ++ n4).toNat = _
  rw [BitVec.toNat_append, ← Nat.shiftLeft_add_eq_or_of_lt n4.isLt, Nat.shiftLeft_eq,
    BitVec.toNat_append, ← Nat.shiftLeft_add_eq_or_of_lt y.isLt, Nat.shiftLeft_eq,
    BitVec.toNat_append, ← Nat.shiftLeft_add_eq_or_of_lt x.isLt, Nat.shiftLeft_eq]
  omega

theorem wordOfBytes_toNat (hi lo : Byte) : (wordOfBytes hi lo).toNat = hi.toNat * 256 + lo.toNat := by
  show (hi ++ lo).toNat = _
  rw [BitVec.toNat_append, ← Nat.shiftLeft_add_eq_or_of_lt lo.isLt, Nat.shiftLeft_eq]

theorem fieldN1_toNat (op : Word) : (fieldN1 op).toNat = op.toNat / 4096 := by
  have := op.isLt
  rw [fieldN1, BitVec.extractLsb'_toNat, Nat.shiftRight_eq_div_pow]; omega

theorem fieldX_toNat (op : Word) : (fieldX op).toNat = op.toNat / 256 % 16 := by
  rw [fieldX, BitVec.extractLsb'_toNat, Nat.shiftRight_eq_div_pow]

theorem fieldY_toNat (op : Word) : (fieldY op).toNat = op.toNat / 16 % 16 := by
  rw [fieldY, BitVec.extractLsb'_toNat, Nat.shiftRight_eq_div_pow]

theorem fieldN_toNat (op : Word) : (fieldN op).toNat = op.toNat % 16 := by
  rw [fieldN, BitVec.extractLsb'_toNat, Nat.shiftRight_eq_div_pow]; omega

theorem fieldNN_toNat (op : Word) : (fieldNN op).toNat = op.toNat % 256 := by
  rw [fieldNN, BitVec.extractLsb'_toNat, Nat.shiftRight_eq_div_pow]; omega

theorem fieldNNN_toNat (op : Word) : (fieldNNN op).toNat = op.toNat % 4096 := by
  rw [fieldNNN, BitVec.extractLsb'_toNat, Nat.shiftRight_eq_div_pow]; omega

theorem highByte_toNat (op : Word) : (highByte op).toNat = op.toNat / 256 := by
  have := op.isLt
  rw [highByte, BitVec.extractLsb'_toNat, Nat.shiftRight_eq_div_pow]; omega

theorem lowByte_toNat (op : Word) : (lowByte op).toNat = op.toNat % 256 := by
  rw [lowByte, BitVec.extractLsb'_toNat, Nat.shiftRight_eq_div_pow]; omega

/-! ### The fields of a word built from its format -/

section Formats
variable (n1 x y n4 : Nibble) (nn : Byte) (nnn : Addr12)

@[simp] theorem fieldN1_formatA : fieldN1 (formatA n1 nnn) = n1 := by
  have := nnn.isLt
  apply BitVec.eq_of_toNat_eq; rw [fieldN1_toNat, formatA_toNat]; omega

@[simp] theorem fieldNNN_formatA : fieldNNN (formatA n1 nnn) = nnn := by
  have := nnn.isLt
  apply BitVec.eq_of_toNat_eq; rw [fieldNNN_toNat, formatA_toNat]; omega

@[simp] theorem fieldN1_formatXI : fieldN1 (formatXI n1 x nn) = n1 := by
  have := x.isLt; have := nn.isLt
  apply BitVec.eq_of_toNat_eq; rw [fieldN1_toNat, formatXI_toNat]; omega

@[simp] theorem fieldX_formatXI : fieldX (formatXI n1 x nn) = x := by
  have := x.isLt; have := nn.isLt
  apply BitVec.eq_of_toNat_eq; rw [fieldX_toNat, formatXI_toNat]; omega

@[simp] theorem fieldNN_formatXI : fieldNN (formatXI n1 x nn) = nn := by
  have := nn.isLt
  apply BitVec.eq_of_toNat_eq; rw [fieldNN_toNat, formatXI_toNat]; omega

@[simp] theorem fieldN1_formatXYN : fieldN1 (formatXYN n1 x y n4) = n1 := by
  have := x.isLt; have := y.isLt; have := n4.isLt
  apply BitVec.eq_of_toNat_eq; rw [fieldN1_toNat, formatXYN_toNat]; omega

@[simp] theorem fieldX_formatXYN : fieldX (formatXYN n1 x y n4) = x := by
  have := x.isLt; have := y.isLt; have := n4.isLt
  apply BitVec.eq_of_toNat_eq; rw [fieldX_toNat, formatXYN_toNat]; omega

@[simp] theorem fieldY_formatXYN : fieldY (formatXYN n1 x y n4) = y := by
  have := y.isLt; have := n4.isLt
  apply BitVec.eq_of_toNat_eq; rw [fieldY_toNat, formatXYN_toNat]; omega

@[simp] theorem fieldN_formatXYN : fieldN (formatXYN n1 x y n4) = n4 := by
  have := n4.isLt
  apply BitVec.eq_of_toNat_eq; rw [fieldN_toNat, formatXYN_toNat]; omega

/-- The low byte of formats `XI` and `FX` holds the last two nibbles. -/
theorem fieldY_formatXI : fieldY (formatXI n1 x nn) = nn.extractLsb' 4 4 := by
  have := nn.isLt
  apply BitVec.eq_of_toNat_eq
  rw [fieldY_toNat, formatXI_toNat, BitVec.extractLsb'_toNat, Nat.shiftRight_eq_div_pow]; omega

theorem fieldN_formatXI : fieldN (formatXI n1 x nn) = nn.extractLsb' 0 4 := by
  have := nn.isLt
  apply BitVec.eq_of_toNat_eq
  rw [fieldN_toNat, formatXI_toNat, BitVec.extractLsb'_toNat, Nat.shiftRight_eq_div_pow]; omega

end Formats

/-! ### A row of the opcode map, nibble by nibble -/

/-- A word is its four nibbles (30_encoding.md R91). -/
theorem formatXYN_fields (op : Word) : formatXYN (fieldN1 op) (fieldX op) (fieldY op) (fieldN op) = op := by
  have := op.isLt
  apply BitVec.eq_of_toNat_eq
  rw [formatXYN_toNat, fieldN1_toNat, fieldX_toNat, fieldY_toNat, fieldN_toNat]; omega

theorem word_eq_iff (a b : Word) :
    a = b ↔ fieldN1 a = fieldN1 b ∧ fieldX a = fieldX b ∧ fieldY a = fieldY b ∧ fieldN a = fieldN b := by
  refine ⟨fun h => by simp [h], fun ⟨h1, h2, h3, h4⟩ => ?_⟩
  rw [← formatXYN_fields a, ← formatXYN_fields b, h1, h2, h3, h4]

@[simp] theorem fieldN1_and (a b : Word) : fieldN1 (a &&& b) = fieldN1 a &&& fieldN1 b := by
  unfold fieldN1; ext k hk; simp

@[simp] theorem fieldX_and (a b : Word) : fieldX (a &&& b) = fieldX a &&& fieldX b := by
  unfold fieldX; ext k hk; simp

@[simp] theorem fieldY_and (a b : Word) : fieldY (a &&& b) = fieldY a &&& fieldY b := by
  unfold fieldY; ext k hk; simp

@[simp] theorem fieldN_and (a b : Word) : fieldN (a &&& b) = fieldN a &&& fieldN b := by
  unfold fieldN; ext k hk; simp

@[simp] theorem nibble_and_ones (a : Nibble) : a &&& 15#4 = a := by revert a; decide

/-- The nibbles of the three masks that leave operand bits open (30_encoding.md R92). -/
theorem mask_F000 : fieldN1 0xF000#16 = 15#4 ∧ fieldX 0xF000#16 = 0#4 ∧ fieldY 0xF000#16 = 0#4 ∧
    fieldN 0xF000#16 = 0#4 := by decide

theorem mask_F00F : fieldN1 0xF00F#16 = 15#4 ∧ fieldX 0xF00F#16 = 0#4 ∧ fieldY 0xF00F#16 = 0#4 ∧
    fieldN 0xF00F#16 = 15#4 := by decide

theorem mask_F0FF : fieldN1 0xF0FF#16 = 15#4 ∧ fieldX 0xF0FF#16 = 0#4 ∧ fieldY 0xF0FF#16 = 15#4 ∧
    fieldN 0xF0FF#16 = 15#4 := by decide

/-- A row admits a word where each nibble, masked, is the row's (30_encoding.md R92). -/
theorem Pattern.admits_iff (p : Pattern) (op : Word) :
    p.admits op = true ↔
      fieldN1 op &&& fieldN1 p.mask = fieldN1 p.value ∧ fieldX op &&& fieldX p.mask = fieldX p.value ∧
      fieldY op &&& fieldY p.mask = fieldY p.value ∧ fieldN op &&& fieldN p.mask = fieldN p.value := by
  unfold Pattern.admits
  rw [beq_iff_eq, word_eq_iff]; simp

/-! ### The two bytes of a word -/

/-- The bytes of a word, high byte first, are the word (20_memory.md R62). -/
@[simp] theorem wordOfBytes_highByte_lowByte (op : Word) : wordOfBytes (highByte op) (lowByte op) = op := by
  apply BitVec.eq_of_toNat_eq; rw [wordOfBytes_toNat, highByte_toNat, lowByte_toNat]; omega

@[simp] theorem highByte_wordOfBytes (hi lo : Byte) : highByte (wordOfBytes hi lo) = hi := by
  have := lo.isLt
  apply BitVec.eq_of_toNat_eq; rw [highByte_toNat, wordOfBytes_toNat]; omega

@[simp] theorem lowByte_wordOfBytes (hi lo : Byte) : lowByte (wordOfBytes hi lo) = lo := by
  have := lo.isLt
  apply BitVec.eq_of_toNat_eq; rw [lowByte_toNat, wordOfBytes_toNat]; omega

/-- Decoding the bytes of a word, as memory holds them, is decoding the word. -/
@[simp] theorem decodeBytes_of_word (op : Word) : decodeBytes (highByte op) (lowByte op) = decode op := by
  simp [decodeBytes]

end Sys2Proof
end

