-- ==== Sys2Proof/Laws/State.lean ====
section
/-!
SUPPORT. What every update of the state does to every field: one lemma per field per update.
-/

namespace Sys2Proof.Machine.State

variable (s : State)

/-! ### `setV` -/

@[simp] theorem setV_v (r : Nibble) (b : Byte) : (s.setV r b).v = s.v.set r.toNat b r.isLt := rfl
@[simp] theorem setV_i (r : Nibble) (b : Byte) : (s.setV r b).i = s.i := rfl
@[simp] theorem setV_pc (r : Nibble) (b : Byte) : (s.setV r b).pc = s.pc := rfl
@[simp] theorem setV_sp (r : Nibble) (b : Byte) : (s.setV r b).sp = s.sp := rfl
@[simp] theorem setV_stack (r : Nibble) (b : Byte) : (s.setV r b).stack = s.stack := rfl
@[simp] theorem setV_dt (r : Nibble) (b : Byte) : (s.setV r b).dt = s.dt := rfl
@[simp] theorem setV_st (r : Nibble) (b : Byte) : (s.setV r b).st = s.st := rfl
@[simp] theorem setV_fb (r : Nibble) (b : Byte) : (s.setV r b).fb = s.fb := rfl
@[simp] theorem setV_mem (r : Nibble) (b : Byte) : (s.setV r b).mem = s.mem := rfl
@[simp] theorem setV_fault (r : Nibble) (b : Byte) : (s.setV r b).fault = s.fault := rfl
@[simp] theorem setV_draws (r : Nibble) (b : Byte) : (s.setV r b).draws = s.draws := rfl
@[simp] theorem setV_turns (r : Nibble) (b : Byte) : (s.setV r b).turns = s.turns := rfl

/-! ### `setRegs` -/

@[simp] theorem setRegs_v (w : Vector Byte 16) : (s.setRegs w).v = w := rfl
@[simp] theorem setRegs_i (w : Vector Byte 16) : (s.setRegs w).i = s.i := rfl
@[simp] theorem setRegs_pc (w : Vector Byte 16) : (s.setRegs w).pc = s.pc := rfl
@[simp] theorem setRegs_sp (w : Vector Byte 16) : (s.setRegs w).sp = s.sp := rfl
@[simp] theorem setRegs_stack (w : Vector Byte 16) : (s.setRegs w).stack = s.stack := rfl
@[simp] theorem setRegs_dt (w : Vector Byte 16) : (s.setRegs w).dt = s.dt := rfl
@[simp] theorem setRegs_st (w : Vector Byte 16) : (s.setRegs w).st = s.st := rfl
@[simp] theorem setRegs_fb (w : Vector Byte 16) : (s.setRegs w).fb = s.fb := rfl
@[simp] theorem setRegs_mem (w : Vector Byte 16) : (s.setRegs w).mem = s.mem := rfl
@[simp] theorem setRegs_fault (w : Vector Byte 16) : (s.setRegs w).fault = s.fault := rfl
@[simp] theorem setRegs_draws (w : Vector Byte 16) : (s.setRegs w).draws = s.draws := rfl
@[simp] theorem setRegs_turns (w : Vector Byte 16) : (s.setRegs w).turns = s.turns := rfl

/-! ### `setI` -/

@[simp] theorem setI_v (w : Word) : (s.setI w).v = s.v := rfl
@[simp] theorem setI_i (w : Word) : (s.setI w).i = w := rfl
@[simp] theorem setI_pc (w : Word) : (s.setI w).pc = s.pc := rfl
@[simp] theorem setI_sp (w : Word) : (s.setI w).sp = s.sp := rfl
@[simp] theorem setI_stack (w : Word) : (s.setI w).stack = s.stack := rfl
@[simp] theorem setI_dt (w : Word) : (s.setI w).dt = s.dt := rfl
@[simp] theorem setI_st (w : Word) : (s.setI w).st = s.st := rfl
@[simp] theorem setI_fb (w : Word) : (s.setI w).fb = s.fb := rfl
@[simp] theorem setI_mem (w : Word) : (s.setI w).mem = s.mem := rfl
@[simp] theorem setI_fault (w : Word) : (s.setI w).fault = s.fault := rfl
@[simp] theorem setI_draws (w : Word) : (s.setI w).draws = s.draws := rfl
@[simp] theorem setI_turns (w : Word) : (s.setI w).turns = s.turns := rfl

/-! ### `setPc` -/

@[simp] theorem setPc_v (w : Word) : (s.setPc w).v = s.v := rfl
@[simp] theorem setPc_i (w : Word) : (s.setPc w).i = s.i := rfl
@[simp] theorem setPc_pc (w : Word) : (s.setPc w).pc = w := rfl
@[simp] theorem setPc_sp (w : Word) : (s.setPc w).sp = s.sp := rfl
@[simp] theorem setPc_stack (w : Word) : (s.setPc w).stack = s.stack := rfl
@[simp] theorem setPc_dt (w : Word) : (s.setPc w).dt = s.dt := rfl
@[simp] theorem setPc_st (w : Word) : (s.setPc w).st = s.st := rfl
@[simp] theorem setPc_fb (w : Word) : (s.setPc w).fb = s.fb := rfl
@[simp] theorem setPc_mem (w : Word) : (s.setPc w).mem = s.mem := rfl
@[simp] theorem setPc_fault (w : Word) : (s.setPc w).fault = s.fault := rfl
@[simp] theorem setPc_draws (w : Word) : (s.setPc w).draws = s.draws := rfl
@[simp] theorem setPc_turns (w : Word) : (s.setPc w).turns = s.turns := rfl

/-! ### `advance` -/

@[simp] theorem advance_v : s.advance.v = s.v := rfl
@[simp] theorem advance_i : s.advance.i = s.i := rfl
@[simp] theorem advance_pc : s.advance.pc = s.pc + 2 := rfl
@[simp] theorem advance_sp : s.advance.sp = s.sp := rfl
@[simp] theorem advance_stack : s.advance.stack = s.stack := rfl
@[simp] theorem advance_dt : s.advance.dt = s.dt := rfl
@[simp] theorem advance_st : s.advance.st = s.st := rfl
@[simp] theorem advance_fb : s.advance.fb = s.fb := rfl
@[simp] theorem advance_mem : s.advance.mem = s.mem := rfl
@[simp] theorem advance_fault : s.advance.fault = s.fault := rfl
@[simp] theorem advance_draws : s.advance.draws = s.draws := rfl
@[simp] theorem advance_turns : s.advance.turns = s.turns := rfl

/-! ### `setStack` -/

@[simp] theorem setStack_v (k : Vector Word 16) (n : Fin 17) : (s.setStack k n).v = s.v := rfl
@[simp] theorem setStack_i (k : Vector Word 16) (n : Fin 17) : (s.setStack k n).i = s.i := rfl
@[simp] theorem setStack_pc (k : Vector Word 16) (n : Fin 17) : (s.setStack k n).pc = s.pc := rfl
@[simp] theorem setStack_sp (k : Vector Word 16) (n : Fin 17) : (s.setStack k n).sp = n := rfl
@[simp] theorem setStack_stack (k : Vector Word 16) (n : Fin 17) : (s.setStack k n).stack = k := rfl
@[simp] theorem setStack_dt (k : Vector Word 16) (n : Fin 17) : (s.setStack k n).dt = s.dt := rfl
@[simp] theorem setStack_st (k : Vector Word 16) (n : Fin 17) : (s.setStack k n).st = s.st := rfl
@[simp] theorem setStack_fb (k : Vector Word 16) (n : Fin 17) : (s.setStack k n).fb = s.fb := rfl
@[simp] theorem setStack_mem (k : Vector Word 16) (n : Fin 17) : (s.setStack k n).mem = s.mem := rfl
@[simp] theorem setStack_fault (k : Vector Word 16) (n : Fin 17) : (s.setStack k n).fault = s.fault := rfl
@[simp] theorem setStack_draws (k : Vector Word 16) (n : Fin 17) : (s.setStack k n).draws = s.draws := rfl
@[simp] theorem setStack_turns (k : Vector Word 16) (n : Fin 17) : (s.setStack k n).turns = s.turns := rfl

/-! ### `setDt` -/

@[simp] theorem setDt_v (b : Byte) : (s.setDt b).v = s.v := rfl
@[simp] theorem setDt_i (b : Byte) : (s.setDt b).i = s.i := rfl
@[simp] theorem setDt_pc (b : Byte) : (s.setDt b).pc = s.pc := rfl
@[simp] theorem setDt_sp (b : Byte) : (s.setDt b).sp = s.sp := rfl
@[simp] theorem setDt_stack (b : Byte) : (s.setDt b).stack = s.stack := rfl
@[simp] theorem setDt_dt (b : Byte) : (s.setDt b).dt = b := rfl
@[simp] theorem setDt_st (b : Byte) : (s.setDt b).st = s.st := rfl
@[simp] theorem setDt_fb (b : Byte) : (s.setDt b).fb = s.fb := rfl
@[simp] theorem setDt_mem (b : Byte) : (s.setDt b).mem = s.mem := rfl
@[simp] theorem setDt_fault (b : Byte) : (s.setDt b).fault = s.fault := rfl
@[simp] theorem setDt_draws (b : Byte) : (s.setDt b).draws = s.draws := rfl
@[simp] theorem setDt_turns (b : Byte) : (s.setDt b).turns = s.turns := rfl

/-! ### `setSt` -/

@[simp] theorem setSt_v (b : Byte) : (s.setSt b).v = s.v := rfl
@[simp] theorem setSt_i (b : Byte) : (s.setSt b).i = s.i := rfl
@[simp] theorem setSt_pc (b : Byte) : (s.setSt b).pc = s.pc := rfl
@[simp] theorem setSt_sp (b : Byte) : (s.setSt b).sp = s.sp := rfl
@[simp] theorem setSt_stack (b : Byte) : (s.setSt b).stack = s.stack := rfl
@[simp] theorem setSt_dt (b : Byte) : (s.setSt b).dt = s.dt := rfl
@[simp] theorem setSt_st (b : Byte) : (s.setSt b).st = b := rfl
@[simp] theorem setSt_fb (b : Byte) : (s.setSt b).fb = s.fb := rfl
@[simp] theorem setSt_mem (b : Byte) : (s.setSt b).mem = s.mem := rfl
@[simp] theorem setSt_fault (b : Byte) : (s.setSt b).fault = s.fault := rfl
@[simp] theorem setSt_draws (b : Byte) : (s.setSt b).draws = s.draws := rfl
@[simp] theorem setSt_turns (b : Byte) : (s.setSt b).turns = s.turns := rfl

/-! ### `setFb` -/

@[simp] theorem setFb_v (f : Surface) : (s.setFb f).v = s.v := rfl
@[simp] theorem setFb_i (f : Surface) : (s.setFb f).i = s.i := rfl
@[simp] theorem setFb_pc (f : Surface) : (s.setFb f).pc = s.pc := rfl
@[simp] theorem setFb_sp (f : Surface) : (s.setFb f).sp = s.sp := rfl
@[simp] theorem setFb_stack (f : Surface) : (s.setFb f).stack = s.stack := rfl
@[simp] theorem setFb_dt (f : Surface) : (s.setFb f).dt = s.dt := rfl
@[simp] theorem setFb_st (f : Surface) : (s.setFb f).st = s.st := rfl
@[simp] theorem setFb_fb (f : Surface) : (s.setFb f).fb = f := rfl
@[simp] theorem setFb_mem (f : Surface) : (s.setFb f).mem = s.mem := rfl
@[simp] theorem setFb_fault (f : Surface) : (s.setFb f).fault = s.fault := rfl
@[simp] theorem setFb_draws (f : Surface) : (s.setFb f).draws = s.draws := rfl
@[simp] theorem setFb_turns (f : Surface) : (s.setFb f).turns = s.turns := rfl

/-! ### `setMem` -/

@[simp] theorem setMem_v (m : Memory) : (s.setMem m).v = s.v := rfl
@[simp] theorem setMem_i (m : Memory) : (s.setMem m).i = s.i := rfl
@[simp] theorem setMem_pc (m : Memory) : (s.setMem m).pc = s.pc := rfl
@[simp] theorem setMem_sp (m : Memory) : (s.setMem m).sp = s.sp := rfl
@[simp] theorem setMem_stack (m : Memory) : (s.setMem m).stack = s.stack := rfl
@[simp] theorem setMem_dt (m : Memory) : (s.setMem m).dt = s.dt := rfl
@[simp] theorem setMem_st (m : Memory) : (s.setMem m).st = s.st := rfl
@[simp] theorem setMem_fb (m : Memory) : (s.setMem m).fb = s.fb := rfl
@[simp] theorem setMem_mem (m : Memory) : (s.setMem m).mem = m := rfl
@[simp] theorem setMem_fault (m : Memory) : (s.setMem m).fault = s.fault := rfl
@[simp] theorem setMem_draws (m : Memory) : (s.setMem m).draws = s.draws := rfl
@[simp] theorem setMem_turns (m : Memory) : (s.setMem m).turns = s.turns := rfl

/-! ### `latch` -/

@[simp] theorem latch_v (f : Fault) : (s.latch f).v = s.v := rfl
@[simp] theorem latch_i (f : Fault) : (s.latch f).i = s.i := rfl
@[simp] theorem latch_pc (f : Fault) : (s.latch f).pc = s.pc := rfl
@[simp] theorem latch_sp (f : Fault) : (s.latch f).sp = s.sp := rfl
@[simp] theorem latch_stack (f : Fault) : (s.latch f).stack = s.stack := rfl
@[simp] theorem latch_dt (f : Fault) : (s.latch f).dt = s.dt := rfl
@[simp] theorem latch_st (f : Fault) : (s.latch f).st = s.st := rfl
@[simp] theorem latch_fb (f : Fault) : (s.latch f).fb = s.fb := rfl
@[simp] theorem latch_mem (f : Fault) : (s.latch f).mem = s.mem := rfl
@[simp] theorem latch_fault (f : Fault) : (s.latch f).fault = some f := rfl
@[simp] theorem latch_draws (f : Fault) : (s.latch f).draws = s.draws := rfl
@[simp] theorem latch_turns (f : Fault) : (s.latch f).turns = s.turns := rfl

/-! ### `countDraw` -/

@[simp] theorem countDraw_v : s.countDraw.v = s.v := rfl
@[simp] theorem countDraw_i : s.countDraw.i = s.i := rfl
@[simp] theorem countDraw_pc : s.countDraw.pc = s.pc := rfl
@[simp] theorem countDraw_sp : s.countDraw.sp = s.sp := rfl
@[simp] theorem countDraw_stack : s.countDraw.stack = s.stack := rfl
@[simp] theorem countDraw_dt : s.countDraw.dt = s.dt := rfl
@[simp] theorem countDraw_st : s.countDraw.st = s.st := rfl
@[simp] theorem countDraw_fb : s.countDraw.fb = s.fb := rfl
@[simp] theorem countDraw_mem : s.countDraw.mem = s.mem := rfl
@[simp] theorem countDraw_fault : s.countDraw.fault = s.fault := rfl
@[simp] theorem countDraw_draws : s.countDraw.draws = s.draws + 1 := rfl
@[simp] theorem countDraw_turns : s.countDraw.turns = s.turns := rfl

/-! ### `countTurn` -/

@[simp] theorem countTurn_v : s.countTurn.v = s.v := rfl
@[simp] theorem countTurn_i : s.countTurn.i = s.i := rfl
@[simp] theorem countTurn_pc : s.countTurn.pc = s.pc := rfl
@[simp] theorem countTurn_sp : s.countTurn.sp = s.sp := rfl
@[simp] theorem countTurn_stack : s.countTurn.stack = s.stack := rfl
@[simp] theorem countTurn_dt : s.countTurn.dt = s.dt := rfl
@[simp] theorem countTurn_st : s.countTurn.st = s.st := rfl
@[simp] theorem countTurn_fb : s.countTurn.fb = s.fb := rfl
@[simp] theorem countTurn_mem : s.countTurn.mem = s.mem := rfl
@[simp] theorem countTurn_fault : s.countTurn.fault = s.fault := rfl
@[simp] theorem countTurn_draws : s.countTurn.draws = s.draws := rfl
@[simp] theorem countTurn_turns : s.countTurn.turns = s.turns + 1 := rfl

/-! ### `setFlag` -/

@[simp] theorem setFlag_i (c : Bool) : (s.setFlag c).i = s.i := rfl
@[simp] theorem setFlag_pc (c : Bool) : (s.setFlag c).pc = s.pc := rfl
@[simp] theorem setFlag_sp (c : Bool) : (s.setFlag c).sp = s.sp := rfl
@[simp] theorem setFlag_stack (c : Bool) : (s.setFlag c).stack = s.stack := rfl
@[simp] theorem setFlag_dt (c : Bool) : (s.setFlag c).dt = s.dt := rfl
@[simp] theorem setFlag_st (c : Bool) : (s.setFlag c).st = s.st := rfl
@[simp] theorem setFlag_fb (c : Bool) : (s.setFlag c).fb = s.fb := rfl
@[simp] theorem setFlag_mem (c : Bool) : (s.setFlag c).mem = s.mem := rfl
@[simp] theorem setFlag_fault (c : Bool) : (s.setFlag c).fault = s.fault := rfl
@[simp] theorem setFlag_draws (c : Bool) : (s.setFlag c).draws = s.draws := rfl
@[simp] theorem setFlag_turns (c : Bool) : (s.setFlag c).turns = s.turns := rfl

/-! ### `setResultFlag` -/

@[simp] theorem setResultFlag_i (x : Nibble) (b : Byte) (c : Bool) : (s.setResultFlag x b c).i = s.i := rfl
@[simp] theorem setResultFlag_pc (x : Nibble) (b : Byte) (c : Bool) : (s.setResultFlag x b c).pc = s.pc := rfl
@[simp] theorem setResultFlag_sp (x : Nibble) (b : Byte) (c : Bool) : (s.setResultFlag x b c).sp = s.sp := rfl
@[simp] theorem setResultFlag_stack (x : Nibble) (b : Byte) (c : Bool) : (s.setResultFlag x b c).stack = s.stack := rfl
@[simp] theorem setResultFlag_dt (x : Nibble) (b : Byte) (c : Bool) : (s.setResultFlag x b c).dt = s.dt := rfl
@[simp] theorem setResultFlag_st (x : Nibble) (b : Byte) (c : Bool) : (s.setResultFlag x b c).st = s.st := rfl
@[simp] theorem setResultFlag_fb (x : Nibble) (b : Byte) (c : Bool) : (s.setResultFlag x b c).fb = s.fb := rfl
@[simp] theorem setResultFlag_mem (x : Nibble) (b : Byte) (c : Bool) : (s.setResultFlag x b c).mem = s.mem := rfl
@[simp] theorem setResultFlag_fault (x : Nibble) (b : Byte) (c : Bool) : (s.setResultFlag x b c).fault = s.fault := rfl
@[simp] theorem setResultFlag_draws (x : Nibble) (b : Byte) (c : Bool) : (s.setResultFlag x b c).draws = s.draws := rfl
@[simp] theorem setResultFlag_turns (x : Nibble) (b : Byte) (c : Bool) : (s.setResultFlag x b c).turns = s.turns := rfl

/-! ### `getV` after an update that leaves the registers alone -/

@[simp] theorem setI_getV (w : Word) (q : Nibble) : (s.setI w).getV q = s.getV q := rfl
@[simp] theorem setPc_getV (w : Word) (q : Nibble) : (s.setPc w).getV q = s.getV q := rfl
@[simp] theorem advance_getV (q : Nibble) : s.advance.getV q = s.getV q := rfl
@[simp] theorem setStack_getV (k : Vector Word 16) (n : Fin 17) (q : Nibble) : (s.setStack k n).getV q = s.getV q := rfl
@[simp] theorem setDt_getV (b : Byte) (q : Nibble) : (s.setDt b).getV q = s.getV q := rfl
@[simp] theorem setSt_getV (b : Byte) (q : Nibble) : (s.setSt b).getV q = s.getV q := rfl
@[simp] theorem setFb_getV (f : Surface) (q : Nibble) : (s.setFb f).getV q = s.getV q := rfl
@[simp] theorem setMem_getV (m : Memory) (q : Nibble) : (s.setMem m).getV q = s.getV q := rfl
@[simp] theorem latch_getV (f : Fault) (q : Nibble) : (s.latch f).getV q = s.getV q := rfl
@[simp] theorem countDraw_getV (q : Nibble) : s.countDraw.getV q = s.getV q := rfl
@[simp] theorem countTurn_getV (q : Nibble) : s.countTurn.getV q = s.getV q := rfl

/-! ### The frame ticks -/

@[simp] theorem tick_v : s.tick.v = s.v := by unfold State.tick; split <;> rfl
@[simp] theorem tick_i : s.tick.i = s.i := by unfold State.tick; split <;> rfl
@[simp] theorem tick_pc : s.tick.pc = s.pc := by unfold State.tick; split <;> rfl
@[simp] theorem tick_sp : s.tick.sp = s.sp := by unfold State.tick; split <;> rfl
@[simp] theorem tick_stack : s.tick.stack = s.stack := by unfold State.tick; split <;> rfl
@[simp] theorem tick_fb : s.tick.fb = s.fb := by unfold State.tick; split <;> rfl
@[simp] theorem tick_mem : s.tick.mem = s.mem := by unfold State.tick; split <;> rfl
@[simp] theorem tick_fault : s.tick.fault = s.fault := by unfold State.tick; split <;> rfl
@[simp] theorem tick_draws : s.tick.draws = s.draws := by unfold State.tick; split <;> rfl
@[simp] theorem tick_turns : s.tick.turns = s.turns := by unfold State.tick; split <;> rfl
@[simp] theorem tick_getV (q : Nibble) : s.tick.getV q = s.getV q := by unfold State.tick; split <;> rfl

@[simp] theorem ticks_v (n : Nat) : (s.ticks n).v = s.v := by unfold State.ticks; split <;> rfl
@[simp] theorem ticks_i (n : Nat) : (s.ticks n).i = s.i := by unfold State.ticks; split <;> rfl
@[simp] theorem ticks_pc (n : Nat) : (s.ticks n).pc = s.pc := by unfold State.ticks; split <;> rfl
@[simp] theorem ticks_sp (n : Nat) : (s.ticks n).sp = s.sp := by unfold State.ticks; split <;> rfl
@[simp] theorem ticks_stack (n : Nat) : (s.ticks n).stack = s.stack := by unfold State.ticks; split <;> rfl
@[simp] theorem ticks_fb (n : Nat) : (s.ticks n).fb = s.fb := by unfold State.ticks; split <;> rfl
@[simp] theorem ticks_mem (n : Nat) : (s.ticks n).mem = s.mem := by unfold State.ticks; split <;> rfl
@[simp] theorem ticks_fault (n : Nat) : (s.ticks n).fault = s.fault := by unfold State.ticks; split <;> rfl
@[simp] theorem ticks_draws (n : Nat) : (s.ticks n).draws = s.draws := by unfold State.ticks; split <;> rfl
@[simp] theorem ticks_turns (n : Nat) : (s.ticks n).turns = s.turns := by unfold State.ticks; split <;> rfl
@[simp] theorem ticks_getV (n : Nat) (q : Nibble) : (s.ticks n).getV q = s.getV q := by unfold State.ticks; split <;> rfl

end Sys2Proof.Machine.State
end

