-- ==== Sys2Proof/Laws/Display.lean ====
section
/-!
SUPPORT. What the loops of a draw do, from the inside out: one pixel, one column, a
row, the whole sprite (43_display.md R192 to R194).
-/

namespace Sys2Proof.Machine

theorem pixel_blank (x y : Nat) : pixel blank x y = false := by
  unfold pixel blank
  by_cases h : y < 32
  · simp [Vector.getElem?_eq_getElem h]
  · simp [Vector.getElem?_eq_none (show 32 ≤ y by omega)]

/-- Flipping a pixel of the display flips that pixel and no other. -/
theorem pixel_flipPixel (fb : Surface) {x y : Nat} (hx : x ≤ 63) (hy : y ≤ 31) (x' y' : Nat) :
    pixel (flipPixel fb x y) x' y' = (pixel fb x' y' ^^ (decide (x' = x) && decide (y' = y))) := by
  unfold pixel flipPixel
  have hy' : y < 32 := by omega
  by_cases h : y' = y
  · subst h
    rw [Vector.getElem?_eq_getElem hy', Vector.getElem?_eq_getElem hy']
    simp only [Vector.getElem_setIfInBounds_self, Option.getD_some, BitVec.getLsbD_xor, BitVec.getLsbD_twoPow,
      decide_true, Bool.and_true]
    have hx' : x < 64 := by omega
    simp [hx', eq_comm]
  · rw [Vector.getElem?_setIfInBounds]; simp [h, Ne.symm h]

/-- One sprite column: its pixel is flipped where the sprite bit is 1 and the column is on the display, and the hit is
set where that pixel was on; nothing else changes. -/
theorem drawColumn_spec {x0 y c : Nat} (row : Byte) (k : Canvas) (hy : y ≤ 31) :
    (∀ x' y', pixel (drawColumn x0 y row k c).fb x' y' =
      (pixel k.fb x' y' ^^
        (decide (x0 + c ≤ 63) && spriteBit row c && decide (x' = x0 + c) && decide (y' = y)))) ∧
    (drawColumn x0 y row k c).hit =
      (k.hit || (decide (x0 + c ≤ 63) && spriteBit row c && pixel k.fb (x0 + c) y)) := by
  unfold drawColumn
  split
  · next h => obtain ⟨h1, h2⟩ := h; simp [h1, h2, pixel_flipPixel k.fb h1 hy]
  · next h =>
    have : (decide (x0 + c ≤ 63) && spriteBit row c) = false := by
      by_cases h1 : x0 + c ≤ 63 <;> simp_all
    simp [this]

/-- A run of distinct sprite columns, from the canvas `k`. -/
theorem drawColumns_spec {x0 y : Nat} (row : Byte) (hy : y ≤ 31) (cs : List Nat) (hcs : cs.Nodup) (k : Canvas) :
    (∀ x' y', (pixel (cs.foldl (drawColumn x0 y row) k).fb x' y' ≠ pixel k.fb x' y' ↔
      y' = y ∧ x' ≤ 63 ∧ ∃ c ∈ cs, x' = x0 + c ∧ spriteBit row c = true)) ∧
    ((cs.foldl (drawColumn x0 y row) k).hit = true ↔
      k.hit = true ∨ ∃ c ∈ cs, x0 + c ≤ 63 ∧ spriteBit row c = true ∧ pixel k.fb (x0 + c) y = true) := by
  induction cs generalizing k with
  | nil => simp
  | cons c cs ih =>
    obtain ⟨hc, hcs⟩ := List.nodup_cons.mp hcs
    obtain ⟨h1, h2⟩ := drawColumn_spec (x0 := x0) (c := c) row k hy
    obtain ⟨i1, i2⟩ := ih hcs (drawColumn x0 y row k c)
    have hne : ∀ d ∈ cs, x0 + d ≠ x0 + c := fun d hd e => hc (by rwa [← Nat.add_left_cancel e])
    rw [List.foldl_cons]
    refine ⟨fun x' y' => ?_, ?_⟩
    · have flip : ∀ a b d : Bool, (a ≠ d ↔ (¬ (a ≠ b) ↔ b ≠ d)) := by decide
      have f : pixel (drawColumn x0 y row k c).fb x' y' ≠ pixel k.fb x' y' ↔
          y' = y ∧ x' ≤ 63 ∧ x' = x0 + c ∧ spriteBit row c = true := by
        rw [h1]; generalize pixel k.fb x' y' = d
        by_cases g1 : x' = x0 + c
        · subst g1; by_cases g2 : y' = y <;> by_cases g3 : x0 + c ≤ 63 <;> cases d <;> simp [g2, g3]
        · cases d <;> simp [g1]
      rw [flip _ (pixel (drawColumn x0 y row k c).fb x' y'), i1, f]
      constructor
      · intro h
        by_cases g : y' = y ∧ x' ≤ 63 ∧ ∃ c ∈ cs, x' = x0 + c ∧ spriteBit row c = true
        · obtain ⟨g1, g2, d, hd, g3⟩ := g
          exact ⟨g1, g2, d, by simp [hd], g3⟩
        · obtain ⟨g1, g2, g3⟩ := h.mp g
          exact ⟨g1, g2, c, by simp, g3⟩
      · rintro ⟨g1, g2, d, hd, g3, g4⟩
        rcases List.mem_cons.mp hd with rfl | hd
        · refine ⟨fun _ => ⟨g1, g2, g3, g4⟩, ?_⟩
          rintro - ⟨-, -, d', hd', g3', -⟩
          exact hne d' hd' (g3'.symm.trans g3)
        · refine ⟨fun g => absurd ⟨g1, g2, d, hd, g3, g4⟩ g, ?_⟩
          rintro ⟨-, -, g3', -⟩
          exact absurd (g3.symm.trans g3') (hne d hd)
    · rw [i2, h2]
      have e : ∀ d ∈ cs, pixel (drawColumn x0 y row k c).fb (x0 + d) y = pixel k.fb (x0 + d) y := by
        intro d hd; rw [h1]; simp [show d ≠ c from fun e => hne d hd (by rw [e])]
      constructor
      · rintro (h | ⟨d, hd, g1, g2, g3⟩)
        · by_cases hk : k.hit = true
          · exact .inl hk
          · refine .inr ⟨c, by simp, ?_⟩
            simpa [hk, and_assoc] using h
        · exact .inr ⟨d, by simp [hd], g1, g2, by rwa [e d hd] at g3⟩
      · rintro (h | ⟨d, hd, g1, g2, g3⟩)
        · exact .inl (by simp [h])
        · rcases List.mem_cons.mp hd with rfl | hd
          · exact .inl (by simp [g1, g2, g3])
          · exact .inr ⟨d, hd, g1, g2, by rwa [e d hd]⟩

/-- One sprite row of the display: the pixels under its 1 bits are flipped and no other, and the hit is set where one of
them was on (43_display.md R192). -/
theorem drawRow_spec {x0 y : Nat} (row : Byte) (k : Canvas) (hy : y ≤ 31) :
    (∀ x y', x ≤ 63 → (pixel (drawRow x0 y row k).fb x y' ≠ pixel k.fb x y' ↔
      y' = y ∧ x0 ≤ x ∧ x < x0 + 8 ∧ row.getLsbD (7 - (x - x0)) = true)) ∧
    ((drawRow x0 y row k).hit = true ↔ k.hit = true ∨
      ∃ x ≤ 63, x0 ≤ x ∧ x < x0 + 8 ∧ row.getLsbD (7 - (x - x0)) = true ∧ pixel k.fb x y = true) := by
  obtain ⟨h1, h2⟩ := drawColumns_spec (x0 := x0) row hy [0, 1, 2, 3, 4, 5, 6, 7] (by decide) k
  have hm : ∀ c : Nat, c ∈ [0, 1, 2, 3, 4, 5, 6, 7] ↔ c < 8 := by
    intro c; simp only [List.mem_cons, List.not_mem_nil, or_false]; omega
  unfold drawRow; rw [if_pos hy]
  refine ⟨fun x y' hx => ?_, ?_⟩
  · rw [h1]
    constructor
    · rintro ⟨g1, -, c, hc, rfl, g2⟩
      have := (hm c).mp hc
      exact ⟨g1, by omega, by omega, by simpa [spriteBit] using g2⟩
    · rintro ⟨g1, g2, g3, g4⟩
      exact ⟨g1, hx, x - x0, (hm _).mpr (by omega), by omega, g4⟩
  · rw [h2]
    refine or_congr_right ⟨?_, ?_⟩
    · rintro ⟨c, hc, g1, g2, g3⟩
      have := (hm c).mp hc
      exact ⟨x0 + c, g1, by omega, by omega, by simpa [spriteBit] using g2, g3⟩
    · rintro ⟨x, g1, g2, g3, g4, g5⟩
      have e : x0 + (x - x0) = x := by omega
      exact ⟨x - x0, (hm _).mpr (by omega), by rw [e]; exact g1, g4, by rw [e]; exact g5⟩

/-- The start column that `DXYN` takes from `V[X]` (43_display.md R193). -/
theorem getV_and_63 (s : State) (x : Nibble) : (s.getV x &&& 63).toNat = startColumn s x := by
  unfold startColumn; generalize s.getV x = b; revert b; decide

/-- The start row that `DXYN` takes from `V[Y]` (43_display.md R193). -/
theorem getV_and_31 (s : State) (y : Nibble) : (s.getV y &&& 31).toNat = startRow s y := by
  unfold startRow; generalize s.getV y = b; revert b; decide

/-- The first row of a sprite and the rest of it. -/
theorem spriteCovers_cons (x0 y0 : Nat) (row : Byte) (rows : List Byte) (x y : Nat) :
    spriteCovers x0 y0 (row :: rows) x y ↔
      (y = y0 ∧ x0 ≤ x ∧ x < x0 + 8 ∧ row.getLsbD (7 - (x - x0)) = true) ∨ spriteCovers x0 (y0 + 1) rows x y := by
  unfold spriteCovers
  constructor
  · rintro ⟨h1, h2, h3, r, hr, hb⟩
    by_cases hy : y = y0
    · subst hy; simp only [Nat.sub_self, List.getElem?_cons_zero, Option.some.injEq] at hr
      subst hr; exact .inl ⟨rfl, h1, h2, hb⟩
    · rw [show y - y0 = (y - (y0 + 1)) + 1 by omega, List.getElem?_cons_succ] at hr
      exact .inr ⟨h1, h2, by omega, r, hr, hb⟩
  · rintro (⟨rfl, h1, h2, hb⟩ | ⟨h1, h2, h3, r, hr, hb⟩)
    · exact ⟨h1, h2, by omega, row, by simp, hb⟩
    · refine ⟨h1, h2, by omega, r, ?_, hb⟩
      rw [show y - y0 = (y - (y0 + 1)) + 1 by omega, List.getElem?_cons_succ]; exact hr

/-- The whole sprite: the pixels of the display it covers are flipped and no other, and the hit is set where one of them
was on (43_display.md R192). -/
theorem drawRows_spec (rows : List Byte) (x0 y0 : Nat) (k : Canvas) :
    (∀ x y, x ≤ 63 → y ≤ 31 → (pixel (drawRows x0 y0 k rows).fb x y ≠ pixel k.fb x y ↔
      spriteCovers x0 y0 rows x y)) ∧
    ((drawRows x0 y0 k rows).hit = true ↔ k.hit = true ∨
      ∃ x y, x ≤ 63 ∧ y ≤ 31 ∧ spriteCovers x0 y0 rows x y ∧ pixel k.fb x y = true) := by
  induction rows generalizing y0 k with
  | nil => simp [drawRows, spriteCovers]
  | cons row rows ih =>
    obtain ⟨i1, i2⟩ := ih (y0 + 1) (drawRow x0 y0 row k)
    have hlow : ∀ {x y}, spriteCovers x0 (y0 + 1) rows x y → y ≠ y0 := fun h e => by
      have := h.2.2.1; omega
    by_cases hy : y0 ≤ 31
    · obtain ⟨h1, h2⟩ := drawRow_spec (x0 := x0) row k hy
      have keep : ∀ {x y}, x ≤ 63 → y ≠ y0 → pixel (drawRow x0 y0 row k).fb x y = pixel k.fb x y := by
        intro x y hx hne
        by_contra h; exact hne ((h1 x y hx).mp h).1
      refine ⟨fun x y hx hy' => ?_, ?_⟩
      · rw [spriteCovers_cons, ← h1 x y hx, drawRows, ← i1 x y hx hy']
        by_cases hyy : y = y0
        · have e : pixel (drawRows x0 (y0 + 1) (drawRow x0 y0 row k) rows).fb x y =
              pixel (drawRow x0 y0 row k).fb x y := by
            by_contra h; exact hlow ((i1 x y hx hy').mp h) hyy
          rw [e]; simp
        · rw [keep hx hyy]; simp
      · rw [drawRows, i2, h2]
        constructor
        · rintro ((h | ⟨x, g1, g2, g3, g4, g5⟩) | ⟨x, y, g1, g2, g3, g4⟩)
          · exact .inl h
          · exact .inr ⟨x, y0, g1, hy, (spriteCovers_cons ..).mpr (.inl ⟨rfl, g2, g3, g4⟩), g5⟩
          · exact .inr ⟨x, y, g1, g2, (spriteCovers_cons ..).mpr (.inr g3), by rwa [keep g1 (hlow g3)] at g4⟩
        · rintro (h | ⟨x, y, g1, g2, g3, g4⟩)
          · exact .inl (.inl h)
          · rcases (spriteCovers_cons ..).mp g3 with ⟨rfl, g5, g6, g7⟩ | g3
            · exact .inl (.inr ⟨x, g1, g5, g6, g7, g4⟩)
            · exact .inr ⟨x, y, g1, g2, g3, by rwa [keep g1 (hlow g3)]⟩
    · have e : drawRow x0 y0 row k = k := by unfold drawRow; rw [if_neg hy]
      rw [e] at i1 i2
      have hc : ∀ {x y}, y ≤ 31 → (spriteCovers x0 y0 (row :: rows) x y ↔ spriteCovers x0 (y0 + 1) rows x y) := by
        intro x y hy'
        rw [spriteCovers_cons]; exact ⟨fun h => h.resolve_left (fun g => by omega), .inr⟩
      refine ⟨fun x y hx hy' => ?_, ?_⟩
      · rw [drawRows, e, i1 x y hx hy', hc hy']
      · rw [drawRows, e, i2]
        refine or_congr_right ⟨?_, ?_⟩
        · rintro ⟨x, y, g1, g2, g3, g4⟩; exact ⟨x, y, g1, g2, (hc g2).mpr g3, g4⟩
        · rintro ⟨x, y, g1, g2, g3, g4⟩; exact ⟨x, y, g1, g2, (hc g2).mp g3, g4⟩

end Sys2Proof.Machine
end

