-- ==== Sys2Proof/Laws/Memory.lean ====
section
/-!
SUPPORT. Memory: a byte written is the byte read, every other byte keeps its own (20_memory.md R70), blocks of bytes
(00_scope.md R9, R10), and the canonical form, which every memory operation keeps. The read laws hold of every list,
canonical or not.
-/

namespace Sys2Proof.Machine

/-! ### One byte -/

theorem readByte_eraseByte_self (m : Memory) (a : Nat) : readByte (eraseByte m a) a = Memory.unlisted := by
  induction m with
  | nil => rfl
  | cons c m ih =>
    by_cases h : c.1 = a
    · simpa [eraseByte, h] using ih
    · have : eraseByte (c :: m) a = c :: eraseByte m a := by simp [eraseByte, h]
      rw [this]; obtain ⟨k, b⟩ := c
      simpa [readByte, show k ≠ a from h] using ih

theorem readByte_eraseByte_of_ne (m : Memory) {a a' : Nat} (h : a' ≠ a) :
    readByte (eraseByte m a) a' = readByte m a' := by
  induction m with
  | nil => rfl
  | cons c m ih =>
    obtain ⟨k, b⟩ := c
    by_cases hk : k = a
    · have : eraseByte ((k, b) :: m) a = eraseByte m a := by simp [eraseByte, hk]
      rw [this, ih]; simp [readByte, hk, Ne.symm h]
    · have : eraseByte ((k, b) :: m) a = (k, b) :: eraseByte m a := by simp [eraseByte, hk]
      rw [this]; simp [readByte, ih]

theorem readByte_insertByte_of_ne (m : Memory) {a a' : Nat} (b : Byte) (h : a' ≠ a) :
    readByte (insertByte a b m) a' = readByte m a' := by
  induction m with
  | nil => simp [insertByte, readByte, Ne.symm h]
  | cons c m ih =>
    obtain ⟨k, d⟩ := c
    unfold insertByte; split
    · simp [readByte, Ne.symm h]
    · simp [readByte, ih]

theorem readByte_insertByte_self (m : Memory) (a : Nat) (b : Byte) (h : ∀ c ∈ m, c.1 ≠ a) :
    readByte (insertByte a b m) a = b := by
  induction m with
  | nil => simp [insertByte, readByte]
  | cons c m ih =>
    obtain ⟨k, d⟩ := c
    unfold insertByte; split
    · simp [readByte]
    · have hk : k ≠ a := h (k, d) (by simp)
      simpa [readByte, hk] using ih (fun c hc => h c (by simp [hc]))

theorem ne_of_mem_eraseByte {m : Memory} {a : Nat} {c : Host.Cell} (h : c ∈ eraseByte m a) : c.1 ≠ a := by
  simpa using (List.mem_filter.mp h).2

/-- A byte written is the byte read (20_memory.md R70). -/
@[simp] theorem readByte_writeByte_self (m : Memory) (a : Nat) (b : Byte) : readByte (writeByte m a b) a = b := by
  unfold writeByte; split
  · next h => rw [readByte_eraseByte_self, h]
  · exact readByte_insertByte_self _ _ _ (fun c hc => ne_of_mem_eraseByte hc)

/-- Every other byte keeps its value (20_memory.md R70). -/
theorem readByte_writeByte_of_ne (m : Memory) {a a' : Nat} (b : Byte) (h : a' ≠ a) :
    readByte (writeByte m a b) a' = readByte m a' := by
  unfold writeByte; split
  · exact readByte_eraseByte_of_ne m h
  · rw [readByte_insertByte_of_ne _ b h, readByte_eraseByte_of_ne m h]

/-! ### A block -/

@[simp] theorem readBytes_length (m : Memory) (a n : Nat) : (readBytes m a n).length = n := by
  induction n generalizing a with
  | zero => rfl
  | succ n ih => simp [readBytes, ih]

/-- Byte `k` of a block read at `a` is `MEM[a + k]` (00_scope.md R9). -/
theorem readBytes_get (m : Memory) (a n k : Nat) (h : k < n) :
    (readBytes m a n)[k]'(by simpa using h) = readByte m (a + k) := by
  induction n generalizing a k with
  | zero => omega
  | succ n ih =>
    cases k with
    | zero => rfl
    | succ k =>
      simp only [readBytes, List.getElem_cons_succ]
      rw [ih (a + 1) k (by omega)]; congr 1; omega

theorem readByte_writeBytes_below (bs : List Byte) (m : Memory) (a a' : Nat) (h : a' < a) :
    readByte (writeBytes m a bs) a' = readByte m a' := by
  induction bs generalizing m a with
  | nil => rfl
  | cons b bs ih =>
    rw [writeBytes, ih _ _ (by omega), readByte_writeByte_of_ne m b (by omega)]

/-- Byte `k` of a written block is read at `a + k` (00_scope.md R10). -/
theorem readByte_writeBytes_inside (bs : List Byte) (m : Memory) (a k : Nat) (h : k < bs.length) :
    readByte (writeBytes m a bs) (a + k) = bs[k] := by
  induction bs generalizing m a k with
  | nil => simp at h
  | cons b bs ih =>
    cases k with
    | zero => rw [writeBytes, readByte_writeBytes_below _ _ _ _ (by omega)]; simp
    | succ k =>
      have := ih (writeByte m a b) (a + 1) k (by simpa using h)
      rw [writeBytes, show a + (k + 1) = a + 1 + k by omega, this]; rfl

/-- Every byte outside a written block keeps its value (00_scope.md R10). -/
theorem readByte_writeBytes_outside (bs : List Byte) (m : Memory) (a a' : Nat)
    (h : a' < a ∨ a + bs.length ≤ a') : readByte (writeBytes m a bs) a' = readByte m a' := by
  induction bs generalizing m a with
  | nil => rfl
  | cons b bs ih =>
    rw [List.length_cons] at h
    rw [writeBytes, ih _ _ (by omega), readByte_writeByte_of_ne m b (by omega)]

/-! ### The canonical form -/

theorem wf_nil : Memory.wf [] := by decide

theorem wf_eraseByte {m : Memory} (a : Nat) (h : Memory.wf m) : Memory.wf (eraseByte m a) :=
  ⟨h.1.sublist List.filter_sublist, fun c hc => h.2 c (List.mem_filter.mp hc).1⟩

theorem mem_insertByte {a : Nat} {b : Byte} {m : Memory} {c : Host.Cell} :
    c ∈ insertByte a b m → c = (a, b) ∨ c ∈ m := by
  induction m with
  | nil => simp [insertByte]
  | cons d m ih =>
    obtain ⟨k, e⟩ := d
    unfold insertByte; split
    · simp
    · simp only [List.mem_cons]; rintro (h | h)
      · exact .inr (.inl h)
      · rcases ih h with h | h
        · exact .inl h
        · exact .inr (.inr h)

theorem pairwise_insertByte {a : Nat} {b : Byte} {m : Memory} (h : m.Pairwise (fun c d => c.1 < d.1))
    (hne : ∀ c ∈ m, c.1 ≠ a) : (insertByte a b m).Pairwise (fun c d => c.1 < d.1) := by
  induction m with
  | nil => simp [insertByte]
  | cons d m ih =>
    obtain ⟨k, e⟩ := d
    rw [List.pairwise_cons] at h
    unfold insertByte; split
    · next hlt =>
      refine List.pairwise_cons.mpr ⟨fun c hc => ?_, List.pairwise_cons.mpr h⟩
      rcases List.mem_cons.mp hc with rfl | hc
      · exact hlt
      · exact Nat.lt_trans hlt (h.1 c hc)
    · next hlt =>
      have hk : k ≠ a := hne (k, e) (by simp)
      refine List.pairwise_cons.mpr ⟨fun c hc => ?_, ih h.2 (fun c hc => hne c (by simp [hc]))⟩
      rcases mem_insertByte hc with rfl | hc
      · exact Nat.lt_of_le_of_ne (Nat.le_of_not_lt hlt) hk
      · exact h.1 c hc

/-- Writing a byte of memory keeps the canonical form. -/
theorem wf_writeByte {m : Memory} {a : Nat} (b : Byte) (ha : a < Config.memSize) (h : Memory.wf m) :
    Memory.wf (writeByte m a b) := by
  unfold writeByte; split
  · exact wf_eraseByte a h
  · next hb =>
    have he := wf_eraseByte a h
    refine ⟨pairwise_insertByte he.1 (fun c hc => ne_of_mem_eraseByte hc), fun c hc => ?_⟩
    rcases mem_insertByte hc with rfl | hc
    · exact ⟨ha, hb⟩
    · exact he.2 c hc

/-- Writing a block of memory keeps the canonical form. -/
theorem wf_writeBytes (bs : List Byte) {m : Memory} {a : Nat} (hb : bs = [] ∨ a + bs.length ≤ Config.memSize)
    (h : Memory.wf m) : Memory.wf (writeBytes m a bs) := by
  induction bs generalizing m a with
  | nil => exact h
  | cons b bs ih =>
    have hb' : a + (bs.length + 1) ≤ Config.memSize := by simpa using hb
    refine ih ?_ (wf_writeByte b (by omega) h)
    right; omega

/-- An address below every listed one reads as unlisted. -/
theorem readByte_of_lt_all {m : Memory} {a : Nat} (h : ∀ c ∈ m, a < c.1) : readByte m a = Memory.unlisted := by
  induction m with
  | nil => rfl
  | cons c m ih =>
    obtain ⟨k, b⟩ := c
    have hk : a < k := h (k, b) (by simp)
    simp [readByte, show k ≠ a by omega, ih (fun c hc => h c (by simp [hc]))]

/-- The reset memory has the canonical form. -/
theorem wf_reset : Memory.wf State.reset.mem := wf_nil

end Sys2Proof.Machine
end

