-- ==== Sys2Proof/Laws/Registers.lean ====
section
/-!
SUPPORT. Reading a register after writing one: the written register gives the value, every other keeps its own; the
flag is written last, so it stays where `X = 15` (00_scope.md R15).
-/

namespace Sys2Proof.Machine

theorem nibble_toNat_ne {q r : Nibble} (h : q ≠ r) : r.toNat ≠ q.toNat := fun e => h (BitVec.eq_of_toNat_eq e.symm)

@[simp] theorem getV_setV_self (s : State) (r : Nibble) (b : Byte) : (s.setV r b).getV r = b := by
  simp [State.getV, State.setV]

theorem getV_setV_of_ne (s : State) {q r : Nibble} (b : Byte) (h : q ≠ r) : (s.setV r b).getV q = s.getV q := by
  simp [State.getV, State.setV, nibble_toNat_ne h]

theorem getV_setV (s : State) (q r : Nibble) (b : Byte) :
    (s.setV r b).getV q = if q = r then b else s.getV q := by
  split
  · next h => subst h; simp
  · next h => exact getV_setV_of_ne s b h

/-- `V[15]` after a flag is written (10_state.md R22). -/
@[simp] theorem getV_setFlag_self (s : State) (c : Bool) : (s.setFlag c).getV vf = flagByte c := by
  simp [State.setFlag]

theorem getV_setFlag_of_ne (s : State) {q : Nibble} (c : Bool) (h : q ≠ vf) : (s.setFlag c).getV q = s.getV q := by
  simp [State.setFlag, getV_setV_of_ne s _ h]

/-- The flag stays, whatever `X` (41_alu.md R162). -/
@[simp] theorem getV_setResultFlag_flag (s : State) (x : Nibble) (b : Byte) (c : Bool) :
    (s.setResultFlag x b c).getV vf = flagByte c := by
  simp [State.setResultFlag]

/-- The result is in `V[X]`, unless `X = 15` (41_alu.md R162). -/
theorem getV_setResultFlag_result (s : State) {x : Nibble} (b : Byte) (c : Bool) (h : x ≠ vf) :
    (s.setResultFlag x b c).getV x = b := by
  simp [State.setResultFlag, getV_setFlag_of_ne _ c h]

/-- Every other register keeps its value. -/
theorem getV_setResultFlag_other (s : State) {x q : Nibble} (b : Byte) (c : Bool) (hx : q ≠ x) (hf : q ≠ vf) :
    (s.setResultFlag x b c).getV q = s.getV q := by
  simp [State.setResultFlag, getV_setFlag_of_ne _ c hf, getV_setV_of_ne s b hx]

/-! ### The register block of `FX55` and `FX65` (42_index_memory.md R174, R175) -/

@[simp] theorem regBlock_length (s : State) (x : Nibble) : (regBlock s x).length = x.toNat + 1 := by
  have := x.isLt
  simp [regBlock]; omega

/-- Byte `k` of the stored block is `V[k]`. -/
theorem regBlock_get (s : State) (x r : Nibble) (h : r.toNat ≤ x.toNat) :
    (regBlock s x)[r.toNat]? = some (s.getV r) := by
  have := r.isLt
  have h16 : r.toNat < 16 := this
  simp only [regBlock, List.getElem?_take]
  rw [if_pos (by omega), Vector.getElem?_toList, Vector.getElem?_eq_getElem h16]
  rfl

/-- What a block load leaves in register `j`: the loaded byte inside the block, the old value outside it. -/
theorem loadRegs_get (bs : List Byte) (v : Vector Byte 16) (k j : Nat) (hj : j < 16) :
    (loadRegs v k bs)[j] = if h : k ≤ j ∧ j < k + bs.length then bs[j - k]'(by omega) else v[j] := by
  induction bs generalizing v k with
  | nil => simp [loadRegs]
  | cons b bs ih =>
    simp only [loadRegs, ih, Vector.getElem_setIfInBounds, List.length_cons]
    by_cases h1 : k = j
    · subst h1; simp
    · by_cases h2 : k + 1 ≤ j ∧ j < k + 1 + bs.length
      · have h3 : k ≤ j ∧ j < k + (bs.length + 1) := by omega
        rw [dif_pos h2, dif_pos h3]
        obtain ⟨d, hd⟩ : ∃ d, j - k = d + 1 := ⟨j - k - 1, by omega⟩
        have hd' : j - (k + 1) = d := by omega
        simp [hd, hd']
      · have h3 : ¬ (k ≤ j ∧ j < k + (bs.length + 1)) := by omega
        rw [dif_neg h2, dif_neg h3, if_neg h1]

end Sys2Proof.Machine
end

