-- ==== Sys2Proof/Laws/Ops.lean ====
section
/-!
SUPPORT. What each shared operation can do, said once: the block accesses (00_scope.md R9, R10), the call stack
(R12), skips, fault entry and fetch.
-/

namespace Sys2Proof.Machine

/-! ### Blocks -/

theorem blockFits_iff (a n : Nat) : blockFits a n = true ↔ n = 0 ∨ a + n ≤ 4096 := by
  simp only [blockFits, Bool.or_eq_true, beq_iff_eq, decide_eq_true_eq]; rfl

/-- `MemRead` answers the block's bytes exactly where it fits (00_scope.md R9). -/
theorem memRead_eq_some (s : State) (a : Word) (n : Nat) (bs : List Byte) :
    memRead s a n = some bs ↔ (n = 0 ∨ a.toNat + n ≤ 4096) ∧ bs = readBytes s.mem a.toNat n := by
  unfold memRead
  rw [← blockFits_iff]
  split <;> simp [*, eq_comm]

theorem memRead_eq_none (s : State) (a : Word) (n : Nat) :
    memRead s a n = none ↔ 1 ≤ n ∧ 4096 < a.toNat + n := by
  unfold memRead
  split
  · next h => rw [blockFits_iff] at h; simp; omega
  · next h => rw [blockFits_iff] at h; simp; omega

/-- `MemWrite` writes the block exactly where it fits (00_scope.md R10). -/
theorem memWrite_eq_some (s t : State) (a : Word) (bs : List Byte) :
    memWrite s a bs = some t ↔
      (bs = [] ∨ a.toNat + bs.length ≤ 4096) ∧ t = s.setMem (writeBytes s.mem a.toNat bs) := by
  unfold memWrite
  rw [← List.length_eq_zero_iff, ← blockFits_iff]
  split <;> simp [*, eq_comm]

theorem memWrite_eq_none (s : State) (a : Word) (bs : List Byte) :
    memWrite s a bs = none ↔ 1 ≤ bs.length ∧ 4096 < a.toNat + bs.length := by
  unfold memWrite
  split
  · next h => rw [blockFits_iff] at h; simp; omega
  · next h => rw [blockFits_iff] at h; simp; omega

/-- Storing a block at `I`: the block is written, or the fault is raised with nothing written (20_memory.md R66). -/
theorem storeAtI_cases (bs : List Byte) (s t : State) (h : storeAtI bs s = .next t) :
    ((bs = [] ∨ s.i.toNat + bs.length ≤ 4096) ∧ t = s.setMem (writeBytes s.mem s.i.toNat bs)) ∨
    (4096 < s.i.toNat + bs.length ∧ t = s.latch (.outOfBoundsWrite s.i)) := by
  unfold storeAtI at h
  split at h
  · next s' hw => cases h; exact .inl ((memWrite_eq_some ..).mp hw)
  · next hw => cases h; exact .inr ⟨((memWrite_eq_none ..).mp hw).2, rfl⟩

theorem storeAtI_of_fits (bs : List Byte) (s : State) (h : s.i.toNat + bs.length ≤ 4096) :
    storeAtI bs s = .next (s.setMem (writeBytes s.mem s.i.toNat bs)) := by
  unfold storeAtI; rw [(memWrite_eq_some s _ s.i bs).mpr ⟨.inr h, rfl⟩]

theorem storeAtI_of_not_fits (bs : List Byte) (s : State) (hb : 1 ≤ bs.length) (h : 4096 < s.i.toNat + bs.length) :
    storeAtI bs s = .next (s.latch (.outOfBoundsWrite s.i)) := by
  unfold storeAtI; rw [(memWrite_eq_none s s.i bs).mpr ⟨hb, h⟩]; rfl

/-- A register stored by `FX55` is the byte read in its place (42_index_memory.md R174). -/
theorem readByte_writeBytes_regBlock (s : State) (m : Memory) (a : Nat) (x r : Nibble) (h : r.toNat ≤ x.toNat) :
    readByte (writeBytes m a (regBlock s x)) (a + r.toNat) = s.getV r := by
  have hl : r.toNat < (regBlock s x).length := by rw [regBlock_length]; omega
  have hg := regBlock_get s x r h
  rw [List.getElem?_eq_getElem hl] at hg
  rw [readByte_writeBytes_inside _ _ _ _ hl, Option.some.inj hg]

/-- A register after `FX65` loads `n` bytes: the byte in its place, or its old value (42_index_memory.md R175). -/
theorem getV_setRegs_loadRegs (s : State) (m : Memory) (a n : Nat) (r : Nibble) :
    (s.setRegs (loadRegs s.v 0 (readBytes m a n))).getV r =
      if r.toNat < n then readByte m (a + r.toNat) else s.getV r := by
  unfold State.getV
  simp only [State.setRegs_v]
  rw [loadRegs_get _ _ _ _ r.isLt]
  simp only [readBytes_length, Nat.zero_le, true_and, Nat.zero_add, Nat.sub_zero]
  split
  · next h => exact readBytes_get _ _ _ _ h
  · rfl

/-! ### The call stack -/

/-- `Push` succeeds exactly where the stack holds fewer than 16 entries (00_scope.md R12). -/
theorem push_eq_some (s t : State) (v : Word) :
    push s v = some t ↔ ∃ h : s.sp.val < 16,
      t = s.setStack (s.stack.set s.sp.val v h) ⟨s.sp.val + 1, Nat.succ_lt_succ h⟩ := by
  unfold push; split
  · next h => simp [h, eq_comm]
  · next h => simp [h]

theorem push_eq_none (s : State) (v : Word) : push s v = none ↔ s.sp.val = 16 := by
  unfold push; have := s.sp.isLt; split <;> simp <;> omega

/-- `Pop` answers the top entry and leaves every slot (00_scope.md R12, 10_state.md R29). -/
theorem pop_eq_some (s t : State) (w : Word) (h : pop s = some (w, t)) :
    t.sp.val + 1 = s.sp.val ∧ s.stack[t.sp.val]? = some w ∧ t = s.setStack s.stack t.sp := by
  unfold pop at h
  split at h
  · cases h
  · next k hk he =>
    simp only [Option.some.injEq, Prod.mk.injEq] at h
    obtain ⟨rfl, rfl⟩ := h
    have hk' : k < 16 := by omega
    simp [he, Vector.getElem?_eq_getElem hk']

theorem pop_eq_none (s : State) : pop s = none ↔ s.sp.val = 0 := by
  unfold pop; split
  · next he => simp [he]
  · next k hk he => simp [he]

/-! ### Skips, faults, fetch -/

theorem skipIf_eq (c : Bool) (s : State) : skipIf c s = .next (s.setPc (if c then s.pc + 2 else s.pc)) := by
  cases c <;> rfl

theorem raise_eq (f : Fault) (s : State) : raise f s = .next { s with fault := some f } := rfl

/-- Fetch answers exactly where both bytes lie in memory (30_encoding.md R90). -/
theorem fetch_eq_some (s : State) (op : Word) :
    fetch s = some op ↔ s.pc.toNat + 2 ≤ 4096 ∧
      op = wordOfBytes (readByte s.mem s.pc.toNat) (readByte s.mem (s.pc.toNat + 1)) := by
  have e : Config.memSize = 4096 := rfl
  unfold fetch; split <;> rw [e] at * <;> simp [*, eq_comm]

theorem fetch_eq_none (s : State) : fetch s = none ↔ 4096 < s.pc.toNat + 2 := by
  have e : Config.memSize = 4096 := rfl
  unfold fetch; split <;> simp <;> omega

/-- `PC` after the advance: it wraps at 16 bits only (10_state.md R26). -/
theorem advance_toNat (s : State) (h : s.pc.toNat < 65534) : s.advance.pc.toNat = s.pc.toNat + 2 := by
  simp [BitVec.toNat_add]; omega

end Sys2Proof.Machine
end

