-- ==== Sys2Proof/Laws/PerInstr.lean ====
section
/-!
SUPPORT. What holds of every instruction as syntax, one lemma per constructor. Family `EncodesInItsRow`: the word of an
instruction is admitted by the instruction's own row of the opcode map, and that row is one of the 29
(30_encoding.md R92).
-/

namespace Sys2Proof.Laws.EncodesInItsRow

/-- The row of `i` is in the opcode map and admits the word of `i` (30_encoding.md R92). -/
def Statement (i : Instr) : Prop := i.pattern ∈ patterns ∧ i.pattern.admits (encode i) = true

/-- Nibble by nibble, format by format. -/
theorem holds (i : Instr) : Statement i := by
  cases i <;> exact ⟨by simp [patterns, Instr.pattern], by
    simp (decide := true) [Pattern.admits_iff, encode, Instr.pattern, mask_F000, mask_F00F, mask_F0FF,
      fieldY_formatXI, fieldN_formatXI]⟩

theorem cls00E0 : Statement (.cls00E0) := holds _

theorem ret00EE : Statement (.ret00EE) := holds _

theorem jp1NNN (nnn : Addr12) : Statement (.jp1NNN nnn) := holds _

theorem call2NNN (nnn : Addr12) : Statement (.call2NNN nnn) := holds _

theorem se3XNN (x : Nibble) (nn : Byte) : Statement (.se3XNN x nn) := holds _

theorem sne4XNN (x : Nibble) (nn : Byte) : Statement (.sne4XNN x nn) := holds _

theorem se5XY0 (x y : Nibble) : Statement (.se5XY0 x y) := holds _

theorem ld6XNN (x : Nibble) (nn : Byte) : Statement (.ld6XNN x nn) := holds _

theorem add7XNN (x : Nibble) (nn : Byte) : Statement (.add7XNN x nn) := holds _

theorem ld8XY0 (x y : Nibble) : Statement (.ld8XY0 x y) := holds _

theorem or8XY1 (x y : Nibble) : Statement (.or8XY1 x y) := holds _

theorem and8XY2 (x y : Nibble) : Statement (.and8XY2 x y) := holds _

theorem xor8XY3 (x y : Nibble) : Statement (.xor8XY3 x y) := holds _

theorem add8XY4 (x y : Nibble) : Statement (.add8XY4 x y) := holds _

theorem sub8XY5 (x y : Nibble) : Statement (.sub8XY5 x y) := holds _

theorem shr8XY6 (x y : Nibble) : Statement (.shr8XY6 x y) := holds _

theorem shl8XYE (x y : Nibble) : Statement (.shl8XYE x y) := holds _

theorem sne9XY0 (x y : Nibble) : Statement (.sne9XY0 x y) := holds _

theorem ldANNN (nnn : Addr12) : Statement (.ldANNN nnn) := holds _

theorem rndCXNN (x : Nibble) (nn : Byte) : Statement (.rndCXNN x nn) := holds _

theorem drwDXYN (x y n : Nibble) : Statement (.drwDXYN x y n) := holds _

theorem ldFX07 (x : Nibble) : Statement (.ldFX07 x) := holds _

theorem ldFX15 (x : Nibble) : Statement (.ldFX15 x) := holds _

theorem ldFX18 (x : Nibble) : Statement (.ldFX18 x) := holds _

theorem addFX1E (x : Nibble) : Statement (.addFX1E x) := holds _

theorem ldFX29 (x : Nibble) : Statement (.ldFX29 x) := holds _

theorem ldFX33 (x : Nibble) : Statement (.ldFX33 x) := holds _

theorem ldFX55 (x : Nibble) : Statement (.ldFX55 x) := holds _

theorem ldFX65 (x : Nibble) : Statement (.ldFX65 x) := holds _

end Sys2Proof.Laws.EncodesInItsRow
end

