-- ==== Sys2Proof/Laws/Step.lean ====
section
/-!
SUPPORT. What a step can do, said once: the phases of the instruction step (60_exceptions.md R238), the machine's step
around it, and that placing a word makes the next fetch read it.
-/

namespace Sys2Proof.Machine

/-- The instruction step ends in one of four ways: the core was faulted, the fetch faults, the word is no instruction,
or the instruction is executed with `PC` advanced. -/
theorem instrStep_cases (s t : State) (h : instrStep s = .next t) :
    (s.fault ≠ none ∧ t = s) ∨
    (s.fault = none ∧ 4096 < s.pc.toNat + 2 ∧ t = s.latch (.outOfBoundsRead s.pc)) ∨
    (s.fault = none ∧ ∃ op w, fetch s = some op ∧ decode op = .unknownOpcode w ∧
      t = s.advance.latch (.unknownOpcode w)) ∨
    (s.fault = none ∧ ∃ op i, fetch s = some op ∧ decode op = .instr i ∧ exec i s.advance = .next t) := by
  unfold instrStep at h
  split at h
  · next f hf => cases h; exact .inl ⟨by simp [hf], rfl⟩
  · next hf =>
    refine .inr ?_
    split at h
    · next hn => cases h; exact .inl ⟨hf, (fetch_eq_none s).mp hn, rfl⟩
    · next op ho =>
      refine .inr ?_
      split at h
      · next w hd => cases h; exact .inl ⟨hf, op, w, ho, hd, rfl⟩
      · next i hd => exact .inr ⟨hf, op, i, ho, hd, h⟩

/-- The machine's step is the instruction step followed by ticks, or nothing where the core is faulted. -/
theorem step_cases (s t : State) (h : step s = .next t) :
    (s.fault ≠ none ∧ t = s) ∨
    (s.fault = none ∧ ∃ u, instrStep s = .next u ∧ t = (u.ticks (Config.ticksAfter s.turns)).countTurn) := by
  unfold step at h
  split at h
  · next f hf => cases h; exact .inl ⟨by simp [hf], rfl⟩
  · next hf =>
    refine .inr ⟨hf, ?_⟩
    unfold betweenSteps at h
    split at h
    · next u hu => cases h; exact ⟨u, hu, rfl⟩
    · cases h
    · cases h

theorem placeAddress_fits (s : State) : placeAddress s + 2 ≤ 4096 := by
  have e : Config.memSize = 4096 := rfl
  have e' : Config.programBase = 512 := rfl
  unfold placeAddress; split <;> omega

/-- The next fetch reads the word that was placed (log 6). -/
theorem fetch_placeWord (s : State) (op : Word) : fetch (placeWord s op) = some op := by
  have h := placeAddress_fits s
  have hpc : (placeWord s op).pc.toNat = placeAddress s := by
    simp [placeWord, Nat.mod_eq_of_lt (show placeAddress s < 65536 by omega)]
  have h0 : readByte (placeWord s op).mem (placeAddress s) = highByte op := by
    have := readByte_writeBytes_inside [highByte op, lowByte op] s.mem (placeAddress s) 0 (by simp)
    simpa [placeWord] using this
  have h1 : readByte (placeWord s op).mem (placeAddress s + 1) = lowByte op := by
    have := readByte_writeBytes_inside [highByte op, lowByte op] s.mem (placeAddress s) 1 (by simp)
    simpa [placeWord] using this
  rw [fetch_eq_some, hpc, h0, h1]
  exact ⟨h, (wordOfBytes_highByte_lowByte op).symm⟩

end Sys2Proof.Machine
end

