-- ==== Sys2Proof/Tests/Slice0.lean ====
section
/-!
SUPPORT. The model's own tests. Expected values are those of spec/95_test_vectors.md or of the rule named; words are
written out bit by bit from 30_encoding.md section 2. The last part shows, for every obligation with hypotheses, a state
and operands that meet them, at the boundary of each clause.
-/

open Sys2Proof Sys2Proof.Machine

namespace Sys2Proof.Tests

/-- One part of the next state, or nothing where there is none. -/
def see {α : Type} (r : Result) (f : State → α) : Option α :=
  match r with
  | .next t => some (f t)
  | .fault _ => none
  | .refused _ => none

/-- The latch and what its two ports show. -/
def faultPorts (t : State) : Option Fault × BitVec 3 × Option Word := (t.fault, t.faultKind, t.faultValue)

/-- The state on entry to the execute phase of the instruction at 0x200. -/
def entry : State := State.reset.setPc 0x0202

/-- `entry` with `V[1]` and `V[2]`. -/
def with12 (a b : Byte) : State := (entry.setV 1 a).setV 2 b

/-- `entry` with `I` and the bytes that stand there. -/
def withMem (i : Word) (bs : List Byte) : State := (entry.setI i).setMem (writeBytes [] i.toNat bs)

/-- `entry` with a full call stack. -/
def full : State := entry.setStack (Vector.replicate 16 0x0300) 16

/-- A core that is faulted, with a running delay timer. -/
def faulted : State := (entry.setDt 5).latch .stackUnderflow

/-- A state about to fetch the two bytes at `pc`. -/
def about (pc : Word) (hi lo : Byte) : State :=
  (State.reset.setPc pc).setMem (writeBytes [] pc.toNat [hi, lo])

/-! ## WellFormed: each check accepts a well-formed term and refuses an ill-formed one -/

theorem test_word_of_instruction_accepted : wordWellFormed 0x8ABE = true := by decide

theorem test_words_of_no_instruction_refused :
    ([0x0000, 0x0123, 0x5121, 0x8AB7, 0x9AB1, 0xB123, 0xE19E, 0xF10A].all fun op => !wordWellFormed op) = true := by
  decide

theorem test_font_of_80_bytes_accepted : fontWellFormed Config.defaultFont = true := by decide

theorem test_font_of_79_bytes_refused : fontWellFormed (Config.defaultFont.drop 1) = false := by decide

theorem test_image_of_3584_bytes_accepted : imageWellFormed (List.replicate 3584 0x00) = true := by
  rw [imageWellFormed, List.length_replicate]; decide

theorem test_image_of_3585_bytes_refused : imageWellFormed (List.replicate 3585 0x00) = false := by
  rw [imageWellFormed, List.length_replicate]; decide

theorem test_canonical_memory_accepted : Memory.wf [(0x200, 0x12), (0xFFF, 0x34)] := by decide

theorem test_memory_out_of_order_refused : ¬ Memory.wf [(0x201, 0x12), (0x200, 0x34)] := by decide

theorem test_memory_listing_twice_refused : ¬ Memory.wf [(0x200, 0x12), (0x200, 0x34)] := by decide

theorem test_memory_listing_zero_refused : ¬ Memory.wf [(0x200, 0x00)] := by decide

theorem test_memory_past_the_end_refused : ¬ Memory.wf [(0x1000, 0x12)] := by decide

/-! ## Decoding: every constructor from a word written out bit by bit (30_encoding.md R92) -/

theorem test_decode_cls00E0 : decode 0b0000000011100000#16 = .instr (.cls00E0) := by decide

theorem test_decode_ret00EE : decode 0b0000000011101110#16 = .instr (.ret00EE) := by decide

theorem test_decode_jp1NNN : decode 0b0001001101000101#16 = .instr (.jp1NNN 0x345) := by decide

theorem test_decode_call2NNN : decode 0b0010001011010100#16 = .instr (.call2NNN 0x2D4) := by decide

theorem test_decode_se3XNN : decode 0b0011001000000001#16 = .instr (.se3XNN 0x2 0x01) := by decide

theorem test_decode_sne4XNN : decode 0b0100001000000001#16 = .instr (.sne4XNN 0x2 0x01) := by decide

theorem test_decode_se5XY0 : decode 0b0101000100100000#16 = .instr (.se5XY0 0x1 0x2) := by decide

theorem test_decode_ld6XNN : decode 0b0110101001000010#16 = .instr (.ld6XNN 0xA 0x42) := by decide

theorem test_decode_add7XNN : decode 0b0111000100100000#16 = .instr (.add7XNN 0x1 0x20) := by decide

theorem test_decode_ld8XY0 : decode 0b1000101010110000#16 = .instr (.ld8XY0 0xA 0xB) := by decide

theorem test_decode_or8XY1 : decode 0b1000101010110001#16 = .instr (.or8XY1 0xA 0xB) := by decide

theorem test_decode_and8XY2 : decode 0b1000101010110010#16 = .instr (.and8XY2 0xA 0xB) := by decide

theorem test_decode_xor8XY3 : decode 0b1000101010110011#16 = .instr (.xor8XY3 0xA 0xB) := by decide

theorem test_decode_add8XY4 : decode 0b1000101010110100#16 = .instr (.add8XY4 0xA 0xB) := by decide

theorem test_decode_sub8XY5 : decode 0b1000101010110101#16 = .instr (.sub8XY5 0xA 0xB) := by decide

theorem test_decode_shr8XY6 : decode 0b1000101010110110#16 = .instr (.shr8XY6 0xA 0xB) := by decide

theorem test_decode_shl8XYE : decode 0b1000101010111110#16 = .instr (.shl8XYE 0xA 0xB) := by decide

theorem test_decode_sne9XY0 : decode 0b1001101010110000#16 = .instr (.sne9XY0 0xA 0xB) := by decide

theorem test_decode_ldANNN : decode 0b1010001000101010#16 = .instr (.ldANNN 0x22A) := by decide

theorem test_decode_rndCXNN : decode 0b1100000100001111#16 = .instr (.rndCXNN 0x1 0x0F) := by decide

theorem test_decode_drwDXYN : decode 0b1101101010111111#16 = .instr (.drwDXYN 0xA 0xB 0xF) := by decide

theorem test_decode_ldFX07 : decode 0b1111001100000111#16 = .instr (.ldFX07 0x3) := by decide

theorem test_decode_ldFX15 : decode 0b1111001100010101#16 = .instr (.ldFX15 0x3) := by decide

theorem test_decode_ldFX18 : decode 0b1111001100011000#16 = .instr (.ldFX18 0x3) := by decide

theorem test_decode_addFX1E : decode 0b1111001000011110#16 = .instr (.addFX1E 0x2) := by decide

theorem test_decode_ldFX29 : decode 0b1111000000101001#16 = .instr (.ldFX29 0x0) := by decide

theorem test_decode_ldFX33 : decode 0b1111001100110011#16 = .instr (.ldFX33 0x3) := by decide

theorem test_decode_ldFX55 : decode 0b1111000101010101#16 = .instr (.ldFX55 0x1) := by decide

theorem test_decode_ldFX65 : decode 0b1111001001100101#16 = .instr (.ldFX65 0x2) := by decide

theorem test_decode_refuses_by_name :
    ([0x00E1, 0x00FE, 0x0FFF, 0x512F, 0x8ABF, 0xBFFF, 0xE1A1, 0xF000, 0xF175, 0xFFFF].all
      fun op => decode op == .unknownOpcode op) = true := by decide

/-- 20_memory.md R62: the byte at the lower address is the high byte. -/
theorem test_decode_bytes_high_first : decodeBytes 0xA2 0x2A = .instr (.ldANNN 0x22A) := by decide

theorem test_table_word_of_16_bits : decodeTableWord 16 0xA22A = some (.ldANNN 0x22A) := by decide

theorem test_table_word_of_no_instruction : decodeTableWord 16 0x0000 = none := by decide

/-! ## One step of each instruction (95_test_vectors.md Part 2) -/

theorem test_clear :
    see (exec .cls00E0 (entry.setFb (flipPixel blank 5 5))) (fun t => pixel t.fb 5 5) = some false := by decide

theorem test_return_pops :
    see (exec .ret00EE (entry.setStack ((Vector.replicate 16 0x0300).set 1 0x0206) 2))
      (fun t => (t.pc, t.sp, t.stack[0])) = some (0x0206, 1, 0x0300) := by decide

theorem test_return_underflow :
    see (exec .ret00EE entry) (fun t => (t.faultKind, t.faultValue, t.pc)) = some (3, some 0x0000, 0x0202) := by decide

theorem test_jump :
    see (exec (.jp1NNN 0x345) entry) (·.pc) = some 0x0345 := by decide

theorem test_call_pushes :
    see (exec (.call2NNN 0x200) entry) (fun t => (t.stack[0], t.sp, t.pc)) = some (0x0202, 1, 0x0200) := by decide

theorem test_call_overflow :
    see (exec (.call2NNN 0xABC) full) (fun t => (t.fault, t.sp, t.pc)) = some (some (.stackOverflow 0x0202), 16, 0x0202) := by decide

theorem test_skip_equal_immediate :
    (see (exec (.se3XNN 2 0x01) (with12 0 0x01)) (·.pc), see (exec (.se3XNN 2 0x01) (with12 0 0xAF)) (·.pc)) =
      (some 0x0204, some 0x0202) := by decide

theorem test_skip_unequal_immediate :
    (see (exec (.sne4XNN 2 0x01) (with12 0 0x01)) (·.pc), see (exec (.sne4XNN 2 0x01) (with12 0 0xAF)) (·.pc)) =
      (some 0x0202, some 0x0204) := by decide

theorem test_skip_equal_registers :
    (see (exec (.se5XY0 1 2) (with12 7 7)) (·.pc), see (exec (.se5XY0 1 2) (with12 7 8)) (·.pc)) =
      (some 0x0204, some 0x0202) := by decide

theorem test_skip_unequal_registers :
    (see (exec (.sne9XY0 1 2) (with12 7 8)) (·.pc), see (exec (.sne9XY0 1 2) (with12 7 7)) (·.pc)) =
      (some 0x0204, some 0x0202) := by decide

theorem test_load_immediate :
    see (exec (.ld6XNN 0xF 0x00) (entry.setV vf 1)) (·.getV vf) = some 0x00 := by decide

theorem test_add_immediate_wraps_without_flag :
    see (exec (.add7XNN 1 0x20) ((with12 0xF0 0).setV vf 7)) (fun t => (t.getV 1, t.getV vf)) = some (0x10, 7) := by decide

theorem test_copy :
    see (exec (.ld8XY0 0 1) ((entry.setV 0 30).setV 1 33)) (fun t => (t.getV 0, t.getV 1)) = some (33, 33) := by decide

theorem test_or_leaves_flag :
    see (exec (.or8XY1 1 2) ((with12 0xF0 0x0F).setV vf 1)) (fun t => (t.getV 1, t.getV vf)) = some (0xFF, 1) := by decide

theorem test_and :
    see (exec (.and8XY2 1 2) (with12 0xF0 0x3C)) (·.getV 1) = some 0x30 := by decide

theorem test_xor :
    see (exec (.xor8XY3 1 2) (with12 0xF0 0x3C)) (·.getV 1) = some 0xCC := by decide

theorem test_add_carry_at_256 :
    (see (exec (.add8XY4 1 2) (with12 0xFF 0x00)) (fun t => (t.getV 1, t.getV vf)),
      see (exec (.add8XY4 1 2) (with12 0xFF 0x01)) (fun t => (t.getV 1, t.getV vf))) = (some (0xFF, 0), some (0x00, 1)) := by decide

theorem test_add_flag_replaces_sum :
    see (exec (.add8XY4 0xF 1) ((with12 0x20 0).setV vf 0xF0)) (·.getV vf) = some 1 := by decide

theorem test_sub_borrow :
    see (exec (.sub8XY5 1 2) (with12 3 5)) (fun t => (t.getV 1, t.getV vf)) = some (0xFE, 0) := by decide

theorem test_sub_equal_is_no_borrow :
    see (exec (.sub8XY5 1 2) (with12 7 7)) (fun t => (t.getV 1, t.getV vf)) = some (0x00, 1) := by decide

theorem test_shift_right_per_strap :
    [Impl.chip48, .superChip, .cosmacVip].map
        (fun impl => see (shiftRight impl 1 2 (with12 0x05 0x08)) (fun t => (t.getV 1, t.getV vf, t.getV 2))) =
      [some (0x02, 1, 0x08), some (0x02, 1, 0x08), some (0x04, 0, 0x08)] := by decide

theorem test_shift_left_per_strap :
    [Impl.chip48, .superChip, .cosmacVip].map
        (fun impl => see (shiftLeft impl 1 2 (with12 0x81 0x40)) (fun t => (t.getV 1, t.getV vf, t.getV 2))) =
      [some (0x02, 1, 0x40), some (0x02, 1, 0x40), some (0x80, 0, 0x40)] := by decide

theorem test_load_index :
    see (exec (.ldANNN 0xFFF) entry) (·.i) = some 0x0FFF := by decide

theorem test_add_index_at_the_top :
    (see (exec (.addFX1E 2) ((with12 0 0xFE).setI 0xF01)) (·.i), see (exec (.addFX1E 2) ((with12 0 0x02).setI 0xFFE)) (·.i)) =
      (some 0x0FFF, some 0x0001) := by decide

theorem test_glyph_address :
    see (exec (.ldFX29 0) (entry.setV 0 0x1A)) (·.i) = some 0x0082 := by decide

theorem test_decimal_digits :
    see (exec (.ldFX33 3) ((entry.setI 0xFFD).setV 3 123)) (fun t => readBytes t.mem 0xFFD 3) = some [1, 2, 3] := by decide

theorem test_decimal_digits_past_the_end :
    see (exec (.ldFX33 3) ((entry.setI 0xFFE).setV 3 123)) (fun t => (t.fault, t.mem, t.pc)) =
      some (some (.outOfBoundsWrite 0x0FFE), [], 0x0202) := by decide

theorem test_store_registers :
    see (exec (.ldFX55 1) ((((entry.setI 0x300).setV 0 0x11).setV 1 0x22).setV 2 0x33)) (fun t => (readBytes t.mem 0x300 3, t.i)) =
      some ([0x11, 0x22, 0x00], 0x0300) := by decide

theorem test_store_registers_past_the_end :
    see (exec (.ldFX55 1) ((entry.setI 0xFFF).setV 0 0x77)) (fun t => (t.fault, t.mem)) =
      some (some (.outOfBoundsWrite 0x0FFF), []) := by decide

theorem test_load_registers :
    see (exec (.ldFX65 2) ((withMem 0x300 [0x02, 0x05, 0x04]).setV 3 9))
      (fun t => (t.getV 0, t.getV 1, t.getV 2, t.getV 3, t.i)) = some (2, 5, 4, 9, 0x0300) := by decide

theorem test_load_registers_past_the_end :
    see (exec (.ldFX65 1) (entry.setI 0xFFF)) (fun t => (t.fault, t.v)) =
      some (some (.outOfBoundsRead 0x0FFF), entry.v) := by decide

theorem test_draw_clips_at_the_right_edge :
    see (exec (.drwDXYN 1 2 1) (((withMem 0x300 [0xFF]).setV 1 0x7E).setV 2 0))
      (fun t => ([61, 62, 63, 0, 5].map (fun x => pixel t.fb x 0), t.getV vf)) =
      some ([false, true, true, false, false], 0) := by decide

theorem test_draw_collides :
    see (exec (.drwDXYN 1 2 1) (((withMem 0x300 [0xC0]).setV 1 10).setV 2 4 |>.setFb (flipPixel blank 10 4)))
      (fun t => (pixel t.fb 10 4, pixel t.fb 11 4, t.getV vf)) = some (false, true, 1) := by decide

theorem test_random_masks :
    (randomInto 0xA7 1 0x0F entry).getV 1 = 0x07 := by decide

theorem test_random_old_value_is_no_input :
    (randomInto 0x00 1 0xFF (entry.setV 1 0xEE)).getV 1 = 0x00 := by decide

theorem test_read_delay_timer :
    see (exec (.ldFX07 3) (entry.setDt 0x2A)) (fun t => (t.getV 3, t.dt)) = some (0x2A, 0x2A) := by decide

theorem test_write_delay_timer :
    see (exec (.ldFX15 3) (entry.setV 3 0x3C)) (fun t => (t.dt, t.st)) = some (0x3C, 0) := by decide

theorem test_write_sound_timer :
    see (exec (.ldFX18 3) (entry.setV 3 0x05)) (fun t => (t.st, t.dt, t.soundOn)) = some (0x05, 0, true) := by decide

/-! ## The step, the tick, reset and launch (95_test_vectors.md sections 2.2, 2.7, 2.8) -/

theorem test_step_at_the_top_of_memory :
    see (instrStep (about 0xFFE 0x6A 0x42)) (fun t => (t.getV 0xA, t.pc)) = some (0x42, 0x1000) := by decide

theorem test_step_at_an_odd_address :
    see (instrStep (about 0x201 0x6B 0x07)) (fun t => (t.getV 0xB, t.pc)) = some (0x07, 0x0203) := by decide

theorem test_step_at_an_unknown_word :
    see (instrStep (about 0x200 0xE1 0x9E)) (fun t => (t.faultKind, t.faultValue, t.pc)) = some (1, some 0xE19E, 0x0202) := by decide

theorem test_step_past_the_end :
    see (instrStep (State.reset.setPc 0xFFF)) (fun t => (t.faultKind, t.faultValue, t.pc)) = some (5, some 0x0FFF, 0x0FFF) := by decide

theorem test_tick :
    [(2, 0), (1, 0), (0, 0), (3, 1)].map (fun p => (((entry.setDt p.1).setSt p.2).tick.dt, ((entry.setDt p.1).setSt p.2).tick.st)) =
      [(1, 0), (0, 0), (0, 0), (2, 0)] := by decide

theorem test_tick_300_times :
    (((entry.setDt 255).setSt 1).ticks 300).dt = 0 ∧ (((entry.setDt 255).setSt 1).ticks 300).st = 0 := by decide

theorem test_tick_of_a_faulted_core :
    faulted.tick = faulted := by decide

theorem test_step_of_a_faulted_core :
    step faulted = .next faulted := by rfl

theorem test_reset_of_a_faulted_core :
    see (deliver .reset faulted) (fun t => (t.faultKind, t.pc, t.dt)) = some (0, 0x0200, 0) := by decide

theorem test_placed_word_is_fetched :
    fetch (State.reset.withFetchWord 16 0x8ABE) = some 0x8ABE := by decide

theorem test_placed_word_runs_next :
    see (step (State.reset.withFetchWord 16 0x6A42)) (fun t => (t.getV 0xA, t.pc)) =
      some (0x42, 0x0202) := by decide

/-- 60_exceptions.md R256: bit `x + 64*y` of the output is pixel `(x, y)`. -/
theorem test_fb_port_bit_order : (entry.setFb (flipPixel blank 5 2)).fbBit (5 + 64 * 2) = true := by decide

/-- 20_memory.md R71, R72, R74: the font from 0x050, the image from 0x200. -/
theorem test_launch_loads : (launch Config.defaultFont [0x12, 0x00]).map
    (fun s => (readBytes s.mem 0x050 5, readByte s.mem 0x09F, readByte s.mem 0x0A0, readBytes s.mem 0x200 3)) =
    some ([0xF0, 0x90, 0x90, 0x90, 0xF0], 0x80, 0x00, [0x12, 0x00, 0x00]) := by decide +kernel

theorem test_launch_refuses_a_short_font : launch (Config.defaultFont.drop 1) [] = none := by decide

/-! ## The hypotheses of each obligation are met, at the boundary of each clause -/

namespace Met

theorem test_EncodeOfDecode :
    decode 0x8AB6 = .instr (.shr8XY6 0xA 0xB) := by decide

theorem test_DecodeFollowsOpcodeMap :
    (⟨0xF00F, 0x8006⟩ : Pattern) ∈ patterns ∧ (⟨0xF00F, 0x8006⟩ : Pattern).admits 0x8AB6 = true ∧
      decode 0x8AB6 = .instr (.shr8XY6 0xA 0xB) := by decide

theorem test_UnknownWordFaults :
    (about 0x200 0xE1 0x9E).fault = none ∧ fetch (about 0x200 0xE1 0x9E) = some 0xE19E ∧ wordWellFormed 0xE19E = false := by decide

theorem test_UnknownWordFaults_second_clause :
    ∃ t, instrStep (about 0x200 0xE1 0x9E) = .next t := by exact ⟨_, rfl⟩

theorem test_FetchIsBigEndian :
    (about 0xFFE 0x6A 0x42).pc.toNat + 2 ≤ 4096 := by decide

theorem test_StepRunsDecodedInstruction : ∃ t, (about 0xFFE 0x6A 0x42).fault = none ∧
    (about 0xFFE 0x6A 0x42).pc.toNat + 2 ≤ 4096 ∧
    decodeBytes (readByte (about 0xFFE 0x6A 0x42).mem 0xFFE) (readByte (about 0xFFE 0x6A 0x42).mem 0xFFF) =
      .instr (.ld6XNN 0xA 0x42) ∧
    exec (.ld6XNN 0xA 0x42) (about 0xFFE 0x6A 0x42).advance = .next t :=
  ⟨_, by decide, by decide, by decide, rfl⟩

theorem test_FetchOutsideMemoryFaults :
    (State.reset.setPc 0xFFF).fault = none ∧ 4096 < (State.reset.setPc 0xFFF).pc.toNat + 2 := by decide

theorem test_FaultedCoreIsFrozen :
    faulted.fault ≠ none := by decide

/-- Each of the six instructions that can fault does so somewhere, with the latch clear before. -/
theorem test_ExecuteFaultsArePrecise_and_OnlyTheseInstructionsFault :
    entry.fault = none ∧ full.fault = none ∧ (entry.setI 0xFFF).fault = none ∧
    see (exec .ret00EE entry) (·.fault) = some (some .stackUnderflow) ∧
    see (exec (.call2NNN 0x300) full) (·.fault) = some (some (.stackOverflow 0x0202)) ∧
    see (exec (.ldFX33 0) (entry.setI 0xFFF)) (·.fault) = some (some (.outOfBoundsWrite 0x0FFF)) ∧
    see (exec (.ldFX55 1) (entry.setI 0xFFF)) (·.fault) = some (some (.outOfBoundsWrite 0x0FFF)) ∧
    see (exec (.ldFX65 1) (entry.setI 0xFFF)) (·.fault) = some (some (.outOfBoundsRead 0x0FFF)) ∧
    see (exec (.drwDXYN 0 0 2) (entry.setI 0xFFF)) (·.fault) = some (some (.outOfBoundsRead 0x0FFF)) := by decide

theorem test_TickLowersBothTimers :
    entry.fault = none ∧ faulted.fault ≠ none := by decide

theorem test_TimersStopAtZero :
    (entry.setDt 255).fault = none := by decide

theorem test_ReturnPopsIntoPc :
    0 < (entry.setStack entry.stack 1).sp.val ∧ 0 < full.sp.val ∧ entry.sp.val = 0 := by decide

theorem test_CallPushesAndJumps :
    (entry.setStack entry.stack 15).sp.val < 16 ∧ full.sp.val = 16 := by decide

theorem test_ReturnUndoesCall : ∃ t, entry.sp.val < 16 ∧ exec (.call2NNN 0x300) entry = .next t ∧ SameStack t t :=
  ⟨_, by decide, rfl, rfl, rfl⟩

theorem test_SelfJumpChangesOnlyTimers :
    (about 0x200 0x12 0x00).fault = none ∧ (about 0x200 0x12 0x00).pc.toNat = (0x200 : Addr12).toNat ∧
      (about 0x200 0x12 0x00).pc.toNat + 2 ≤ 4096 ∧
      decodeBytes (readByte (about 0x200 0x12 0x00).mem 0x200) (readByte (about 0x200 0x12 0x00).mem 0x201) =
        .instr (.jp1NNN 0x200) := by decide

theorem test_DestinationIsNotTheFlag :
    ((1 : Nibble) ≠ vf) ∧ see (exec (.add8XY4 1 2) (with12 1 2)) (·.getV 1) = some 3 := by decide

theorem test_DecimalDigitsAreStored :
    (entry.setI 0xFFD).i.toNat + 3 ≤ 4096 ∧ 4096 < (entry.setI 0xFFE).i.toNat + 3 := by decide

theorem test_StoreRegistersWritesBlock_and_LoadRegistersReadsBlock :
    (entry.setI 0xFF0).i.toNat + (0xF : Nibble).toNat + 1 ≤ 4096 ∧ (0xF : Nibble).toNat ≤ (0xF : Nibble).toNat ∧
      4096 < (entry.setI 0xFF1).i.toNat + (0xF : Nibble).toNat + 1 := by decide

theorem test_LoadUndoesStore : ∃ t, (entry.setI 0xFF0).i.toNat + (0xF : Nibble).toNat + 1 ≤ 4096 ∧
    exec (.ldFX55 0xF) (entry.setI 0xFF0) = .next t ∧ SameMemory t t ∧ t.i = (entry.setI 0xFF0).i :=
  ⟨_, by decide, rfl, fun _ => rfl, rfl⟩

theorem test_StoredBytesAreFetched : ∃ t, (entry.setI 0xFFE).i.toNat + (1 : Nibble).toNat + 1 ≤ 4096 ∧
    exec (.ldFX55 1) (entry.setI 0xFFE) = .next t ∧ (1 : Nibble).toNat = (0 : Nibble).toNat + 1 ∧
    (1 : Nibble).toNat ≤ (1 : Nibble).toNat :=
  ⟨_, by decide, rfl, by decide, by decide⟩

theorem test_DrawFlipsCoveredPixels :
    (0 : Nibble).toNat = 0 ∧ (entry.setI 0xFFF).i.toNat + (1 : Nibble).toNat ≤ 4096 ∧
      1 ≤ (2 : Nibble).toNat ∧ 4096 < (entry.setI 0xFFF).i.toNat + (2 : Nibble).toNat ∧ 63 ≤ 63 ∧ 31 ≤ 31 := by decide

theorem test_DrawTwiceRestoresDisplay : ∃ t u, (withMem 0xFFF [0x80]).i.toNat + (1 : Nibble).toNat ≤ 4096 ∧
    exec (.drwDXYN 0 1 1) (withMem 0xFFF [0x80]) = .next t ∧ u.fb = t.fb ∧ SameMemory (withMem 0xFFF [0x80]) u ∧
    u.i = (withMem 0xFFF [0x80]).i ∧ u.getV 0 = (withMem 0xFFF [0x80]).getV 0 ∧
    u.getV 1 = (withMem 0xFFF [0x80]).getV 1 :=
  ⟨_, (withMem 0xFFF [0x80]).setFb _, by decide, rfl, rfl, fun _ => rfl, rfl, rfl, rfl⟩

theorem test_RandomIsMaskedByImmediate :
    (0x0F : Byte).getLsbD 4 = false ∧ (1 : Nibble) ≠ vf := by decide

theorem test_RegisterOperationsFrame : ∀ i ∈ [Instr.ld6XNN 1 5, .add7XNN 1 5, .ld8XY0 1 2, .or8XY1 1 2, .and8XY2 1 2,
    .xor8XY3 1 2, .ldFX07 1], ∃ t, exec i (with12 3 4) = .next t := by
  simp only [List.forall_mem_cons]; exact ⟨⟨_, rfl⟩, ⟨_, rfl⟩, ⟨_, rfl⟩, ⟨_, rfl⟩, ⟨_, rfl⟩, ⟨_, rfl⟩, ⟨_, rfl⟩, by simp⟩

theorem test_FlagOperationsFrame : ∀ i ∈ [Instr.add8XY4 1 2, .sub8XY5 1 2, .shr8XY6 1 2, .shl8XYE 1 2],
    ∃ t, exec i (with12 3 4) = .next t := by
  simp only [List.forall_mem_cons]; exact ⟨⟨_, rfl⟩, ⟨_, rfl⟩, ⟨_, rfl⟩, ⟨_, rfl⟩, by simp⟩

theorem test_ControlTransferFrame : ∀ i ∈ [Instr.ret00EE, .jp1NNN 0x300, .call2NNN 0x300, .se3XNN 1 3, .sne4XNN 1 3,
    .se5XY0 1 2, .sne9XY0 1 2], ∃ t, exec i (with12 3 4) = .next t := by
  simp only [List.forall_mem_cons]; exact ⟨⟨_, rfl⟩, ⟨_, rfl⟩, ⟨_, rfl⟩, ⟨_, rfl⟩, ⟨_, rfl⟩, ⟨_, rfl⟩, ⟨_, rfl⟩, by simp⟩

theorem test_IndexOperationsFrame : ∀ i ∈ [Instr.ldANNN 0x300, .addFX1E 1, .ldFX29 1],
    ∃ t, exec i (with12 3 4) = .next t := by
  simp only [List.forall_mem_cons]; exact ⟨⟨_, rfl⟩, ⟨_, rfl⟩, ⟨_, rfl⟩, by simp⟩

/-- A store that fits and one that does not. -/
theorem test_StoreFrame : ∀ i ∈ [Instr.ldFX33 1, .ldFX55 1],
    (∃ t, exec i (entry.setI 0x300) = .next t) ∧ ∃ t, exec i (entry.setI 0xFFF) = .next t := by
  simp only [List.forall_mem_cons]; exact ⟨⟨⟨_, rfl⟩, ⟨_, rfl⟩⟩, ⟨⟨_, rfl⟩, ⟨_, rfl⟩⟩, by simp⟩

theorem test_LoadRegistersFrame : (∃ t, exec (.ldFX65 1) (entry.setI 0x300) = .next t) ∧
    (∃ t, exec (.ldFX65 1) (entry.setI 0xFFF) = .next t) ∧ (1 : Nibble).toNat < (2 : Nibble).toNat :=
  ⟨⟨_, rfl⟩, ⟨_, rfl⟩, by decide⟩

theorem test_DisplayFrame : (∃ t, exec .cls00E0 entry = .next t) ∧
    (∃ t, exec (.drwDXYN 1 2 1) (entry.setI 0x300) = .next t) ∧
    ∃ t, exec (.drwDXYN 1 2 2) (entry.setI 0xFFF) = .next t := ⟨⟨_, rfl⟩, ⟨_, rfl⟩, ⟨_, rfl⟩⟩

theorem test_TimerWriteFrame : (∃ t, exec (.ldFX15 1) entry = .next t) ∧ ∃ t, exec (.ldFX18 1) entry = .next t :=
  ⟨⟨_, rfl⟩, ⟨_, rfl⟩⟩

theorem test_RandomFrame : ∃ t, exec (.rndCXNN 1 0xFF) entry = .next t := ⟨_, rfl⟩

/-- Each kind of state is changed by an instruction the statement names. -/
theorem test_WritersOfEachState :
    see (exec (.ldANNN 0x300) entry) (fun t => t.i != entry.i) = some true ∧
    see (exec (.ldFX15 1) (with12 3 4)) (fun t => t.dt != entry.dt) = some true ∧
    see (exec (.ldFX18 1) (with12 3 4)) (fun t => t.st != entry.st) = some true ∧
    see (exec .cls00E0 (entry.setFb (flipPixel blank 5 5))) (fun t => pixel t.fb 5 5) = some false ∧
    see (exec (.call2NNN 0x300) entry) (fun t => t.sp != entry.sp) = some true ∧
    see (exec (.ldFX55 1) ((with12 3 4).setI 0x300)) (fun t => readByte t.mem 0x301 != readByte entry.mem 0x301) =
      some true ∧
    see (exec (.rndCXNN 1 0xFF) entry) (fun t => t.draws != entry.draws) = some true := by decide

/-- The stack empty, with one entry, and full; the last pixel. -/
theorem test_PortsShowState : entry.sp.val = 0 ∧ 0 < (entry.setStack entry.stack 1).sp.val ∧ 0 < full.sp.val ∧
    full.stackTop = some 0x0300 ∧ full.stackLen = 16 ∧ (63 : Nat) ≤ 63 ∧ (31 : Nat) ≤ 31 := by decide

/-- Each fault as the step or the instruction raises it, by the codes and values of 95_test_vectors.md section 2.8. -/
theorem test_PortsShowState_faults :
    [instrStep (about 0x200 0xE1 0x9E), exec (.call2NNN 0xABC) full, exec .ret00EE entry,
      exec (.ldFX33 0) (entry.setI 0xFFE), exec (.ldFX65 1) (entry.setI 0xFFF)].map (fun r => see r faultPorts) =
    [some (some (.unknownOpcode 0xE19E), 1, some 0xE19E), some (some (.stackOverflow 0x0202), 2, some 0x0202),
      some (some .stackUnderflow, 3, some 0x0000), some (some (.outOfBoundsWrite 0x0FFE), 4, some 0x0FFE),
      some (some (.outOfBoundsRead 0x0FFF), 5, some 0x0FFF)] := by decide

theorem test_MemoryFormIsCanonical : Memory.wf (writeByte (writeByte [] 0x201 2) 0x200 1) ∧
    Memory.wf (writeByte (writeByte [] 0x200 1) 0x201 2) ∧
    ∀ a, readByte (writeByte (writeByte [] 0x201 2) 0x200 1) a =
      readByte (writeByte (writeByte [] 0x200 1) 0x201 2) a := ⟨by decide, by decide, fun _ => rfl⟩

theorem test_LaunchLoadsFontAndImage : (launch Config.defaultFont []).isSome = true := by decide +kernel

theorem test_StepKeepsInvariant : State.reset.Inv ∧ ∃ t, step State.reset = .next t := ⟨by decide, _, rfl⟩

theorem test_EveryInterleavingKeepsInvariant : State.reset.Inv ∧
    see (deliverAll [.step, .tick, .reset, .tick] State.reset) (·.pc) = some 0x0200 := by decide

end Met

end Sys2Proof.Tests
end

section
/-!
The reset state, its entry point and its display (10_state.md R40, R45).
-/

namespace Sys2Proof.Machine

/-- Reset leaves the surface that `00E0` leaves: "Cleared on explicit clear instruction or VM reset" (10_state.md R45). -/
@[simp] theorem State.reset_fb : State.reset.fb = blank := rfl

/-- Settles O55: the entry address is a field of the reset state, and its display is the blank one. -/
theorem resetEntryAndDisplay : Obligations.ResetEntryAndDisplay := by
  unfold Obligations.ResetEntryAndDisplay
  refine ⟨rfl, fun x y _ _ => ?_⟩
  rw [State.reset_fb]
  exact pixel_blank x y

end Sys2Proof.Machine
end

section
/-!
The nibbles of a word of two bytes (30_encoding.md R91), and the word a fetch answers (20_memory.md R62).
-/

namespace Sys2Proof

theorem fieldN1_wordOfBytes_toNat (hi lo : Byte) : (fieldN1 (wordOfBytes hi lo)).toNat = hi.toNat / 16 := by
  have := lo.isLt
  rw [fieldN1_toNat, wordOfBytes_toNat]; omega

theorem fieldX_wordOfBytes_toNat (hi lo : Byte) : (fieldX (wordOfBytes hi lo)).toNat = hi.toNat % 16 := by
  have := lo.isLt
  rw [fieldX_toNat, wordOfBytes_toNat]; omega

theorem fieldY_wordOfBytes_toNat (hi lo : Byte) : (fieldY (wordOfBytes hi lo)).toNat = lo.toNat / 16 := by
  have := lo.isLt
  rw [fieldY_toNat, wordOfBytes_toNat]; omega

theorem fieldN_wordOfBytes_toNat (hi lo : Byte) : (fieldN (wordOfBytes hi lo)).toNat = lo.toNat % 16 := by
  rw [fieldN_toNat, wordOfBytes_toNat]; omega

end Sys2Proof

namespace Sys2Proof.Machine

/-- Settles O6: the fetched word is that of the two bytes at `PC`, and each nibble is half of one of them. -/
theorem fetchIsBigEndian : Obligations.FetchIsBigEndian := by
  unfold Obligations.FetchIsBigEndian
  intro s hpc
  refine ⟨_, (fetch_eq_some s _).mpr ⟨hpc, rfl⟩, ?_, fieldN1_wordOfBytes_toNat _ _, fieldX_wordOfBytes_toNat _ _,
    fieldY_wordOfBytes_toNat _ _, fieldN_wordOfBytes_toNat _ _⟩
  rw [wordOfBytes_toNat, Nat.mul_comm]

end Sys2Proof.Machine
end

section
/-!
Control transfer (40_control_flow.md): what return, jump, call and the four skips answer, in terms of the shared
operations, and how their words decode (30_encoding.md R94 to R97).
-/

namespace Sys2Proof

/-! ### The words of jump, call and the skips -/

theorem decode_jp1NNN (nnn : Addr12) : decode (formatA 0x1 nnn) = .instr (.jp1NNN nnn) := by
  simp [decode]

theorem decode_call2NNN (nnn : Addr12) : decode (formatA 0x2 nnn) = .instr (.call2NNN nnn) := by
  simp [decode]

theorem decode_se3XNN (x : Nibble) (nn : Byte) : decode (formatXI 0x3 x nn) = .instr (.se3XNN x nn) := by
  simp [decode]

theorem decode_sne4XNN (x : Nibble) (nn : Byte) : decode (formatXI 0x4 x nn) = .instr (.sne4XNN x nn) := by
  simp [decode]

theorem decode_se5XY0 (x y : Nibble) : decode (formatXYN 0x5 x y 0x0) = .instr (.se5XY0 x y) := by
  simp [decode, decode5]

theorem decode_sne9XY0 (x y : Nibble) : decode (formatXYN 0x9 x y 0x0) = .instr (.sne9XY0 x y) := by
  simp [decode, decode9]

end Sys2Proof

namespace Sys2Proof.Machine

/-! ### Jump -/

/-- An address immediate keeps its value as a word (00_scope.md R7). -/
@[simp] theorem zextAddr_toNat (nnn : Addr12) : (zextAddr nnn).toNat = nnn.toNat := by
  have := nnn.isLt
  rw [zextAddr, BitVec.toNat_setWidth]; omega

@[simp] theorem exec_jp1NNN (nnn : Addr12) (s : State) : exec (.jp1NNN nnn) s = .next (s.setPc (zextAddr nnn)) := rfl

/-! ### Call -/

/-- With room on the stack, the slot `SP` names takes the old `PC` (40_control_flow.md R123). -/
theorem exec_call2NNN_of_lt (nnn : Addr12) (s : State) (h : s.sp.val < 16) :
    exec (.call2NNN nnn) s =
      .next ((s.setStack (s.stack.set s.sp.val s.pc h) ⟨s.sp.val + 1, Nat.succ_lt_succ h⟩).setPc (zextAddr nnn)) := by
  simp only [exec, execCall2NNN, (push_eq_some s _ s.pc).mpr ⟨h, rfl⟩]

theorem exec_call2NNN_of_full (nnn : Addr12) (s : State) (h : s.sp.val = 16) :
    exec (.call2NNN nnn) s = .next (s.latch (.stackOverflow s.pc)) := by
  simp only [exec, execCall2NNN, (push_eq_none s s.pc).mpr h]; rfl

/-! ### Return -/

/-- With an entry on the stack, `PC` takes the popped word (40_control_flow.md R121). -/
theorem exec_ret00EE_of_pos (s : State) (h : 0 < s.sp.val) :
    ∃ w t, pop s = some (w, t) ∧ exec .ret00EE s = .next (t.setPc w) := by
  have hne : pop s ≠ none := fun e => h.ne' ((pop_eq_none s).mp e)
  obtain ⟨⟨w, t⟩, hp⟩ := Option.ne_none_iff_exists'.mp hne
  exact ⟨w, t, hp, by simp only [exec, execRet00EE, hp]⟩

theorem exec_ret00EE_of_empty (s : State) (h : s.sp.val = 0) :
    exec .ret00EE s = .next (s.latch .stackUnderflow) := by
  simp only [exec, execRet00EE, (pop_eq_none s).mpr h]; rfl

/-! ### Skips -/

@[simp] theorem exec_se3XNN (x : Nibble) (nn : Byte) (s : State) :
    exec (.se3XNN x nn) s = skipIf (s.getV x == nn) s := rfl

@[simp] theorem exec_sne4XNN (x : Nibble) (nn : Byte) (s : State) :
    exec (.sne4XNN x nn) s = skipIf (s.getV x != nn) s := rfl

@[simp] theorem exec_se5XY0 (x y : Nibble) (s : State) :
    exec (.se5XY0 x y) s = skipIf (s.getV x == s.getV y) s := rfl

@[simp] theorem exec_sne9XY0 (x y : Nibble) (s : State) :
    exec (.sne9XY0 x y) s = skipIf (s.getV x != s.getV y) s := rfl

/-- A skip moves `PC` by 2 or not at all, and writes neither the flag nor the latch. -/
theorem skipIf_spec (c : Bool) (s : State) : ∃ t, skipIf c s = .next t ∧
    t.pc = (if c then s.pc + 2 else s.pc) ∧ t.getV vf = s.getV vf ∧ t.fault = s.fault :=
  ⟨_, skipIf_eq c s, rfl, rfl, rfl⟩

/-- A skip on equal bytes (`3XNN`, `5XY0`). -/
theorem skipIf_beq_spec (a b : Byte) (s : State) : ∃ t, skipIf (a == b) s = .next t ∧
    t.pc = (if a = b then s.pc + 2 else s.pc) ∧ t.getV vf = s.getV vf ∧ t.fault = s.fault := by
  simpa only [beq_iff_eq] using skipIf_spec (a == b) s

/-- A skip on different bytes (`4XNN`, `9XY0`). -/
theorem skipIf_bne_spec (a b : Byte) (s : State) : ∃ t, skipIf (a != b) s = .next t ∧
    t.pc = (if a = b then s.pc else s.pc + 2) ∧ t.getV vf = s.getV vf ∧ t.fault = s.fault := by
  simpa only [bne_iff_ne, ite_not] using skipIf_spec (a != b) s

/-! ### The obligations -/

/-- Settles O20: each skip is `skipIf` on its own condition, and its word decodes to it. -/
theorem skipsFollowTheirConditions : Obligations.SkipsFollowTheirConditions := by
  unfold Obligations.SkipsFollowTheirConditions
  intro x y nn s
  simp only [exec_se3XNN, exec_sne4XNN, exec_se5XY0, exec_sne9XY0]
  exact ⟨decode_se3XNN x nn, decode_sne4XNN x nn, decode_se5XY0 x y, decode_sne9XY0 x y,
    skipIf_beq_spec (s.getV x) nn s, skipIf_bne_spec (s.getV x) nn s,
    skipIf_beq_spec (s.getV x) (s.getV y) s, skipIf_bne_spec (s.getV x) (s.getV y) s⟩

/-- Settles O16, by what `pop` answers on a stack with an entry and on an empty one. -/
theorem returnPopsIntoPc : Obligations.ReturnPopsIntoPc := by
  unfold Obligations.ReturnPopsIntoPc
  refine ⟨by decide, fun s hs => ?_, exec_ret00EE_of_empty⟩
  obtain ⟨w, t, hp, he⟩ := exec_ret00EE_of_pos s hs
  obtain ⟨hsp, hslot, ht⟩ := pop_eq_some s t w hp
  refine ⟨t.setPc w, he, hsp, hslot, ?_⟩
  rw [ht]; exact ⟨rfl, rfl, rfl⟩

/-- Settles O17: the jump writes `PC` alone, and an address immediate keeps its value as a word. -/
theorem jumpSetsPc : Obligations.JumpSetsPc := by
  unfold Obligations.JumpSetsPc
  intro nnn s
  exact ⟨decode_jp1NNN nnn, _, exec_jp1NNN nnn s, zextAddr_toNat nnn, rfl, rfl⟩

/-- Settles O18, by what `push` answers with room on the stack and on a full one. -/
theorem callPushesAndJumps : Obligations.CallPushesAndJumps := by
  unfold Obligations.CallPushesAndJumps
  intro nnn s
  refine ⟨decode_call2NNN nnn, fun h => ?_, exec_call2NNN_of_full nnn s⟩
  refine ⟨_, exec_call2NNN_of_lt nnn s h, rfl, ?_, fun k hk => ?_, zextAddr_toNat nnn, rfl, rfl⟩
  · simp
  · simp [Vector.getElem?_set_ne h hk.symm]

end Sys2Proof.Machine
end

section
/-!
Load, add and subtract (41_alu.md R140 to R142, R150, R151): how the words decode (30_encoding.md R98), the next state of
each instruction, and sum, difference and flag as numbers.
-/

namespace Sys2Proof

/-! ### The words -/

theorem decode_ld6XNN (x : Nibble) (nn : Byte) : decode (formatXI 0x6 x nn) = .instr (.ld6XNN x nn) := by
  simp [decode]

theorem decode_add7XNN (x : Nibble) (nn : Byte) : decode (formatXI 0x7 x nn) = .instr (.add7XNN x nn) := by
  simp [decode]

theorem decode_ld8XY0 (x y : Nibble) : decode (formatXYN 0x8 x y 0x0) = .instr (.ld8XY0 x y) := by
  simp [decode, decode8]

theorem decode_add8XY4 (x y : Nibble) : decode (formatXYN 0x8 x y 0x4) = .instr (.add8XY4 x y) := by
  simp [decode, decode8]

theorem decode_sub8XY5 (x y : Nibble) : decode (formatXYN 0x8 x y 0x5) = .instr (.sub8XY5 x y) := by
  simp [decode, decode8]

end Sys2Proof

namespace Sys2Proof.Machine

/-! ### The next states -/

@[simp] theorem exec_ld6XNN (x : Nibble) (nn : Byte) (s : State) : exec (.ld6XNN x nn) s = .next (s.setV x nn) := rfl

@[simp] theorem exec_add7XNN (x : Nibble) (nn : Byte) (s : State) :
    exec (.add7XNN x nn) s = .next (s.setV x (s.getV x + nn)) := rfl

@[simp] theorem exec_ld8XY0 (x y : Nibble) (s : State) : exec (.ld8XY0 x y) s = .next (s.setV x (s.getV y)) := rfl

@[simp] theorem exec_add8XY4 (x y : Nibble) (s : State) : exec (.add8XY4 x y) s =
    .next (s.setResultFlag x (s.getV x + s.getV y) (carryOut (s.getV x) (s.getV y))) := rfl

@[simp] theorem exec_sub8XY5 (x y : Nibble) (s : State) : exec (.sub8XY5 x y) s =
    .next (s.setResultFlag x (s.getV x - s.getV y) (noBorrow (s.getV x) (s.getV y))) := rfl

/-! ### Registers, results and flags -/

/-- Writing another register leaves the flag alone (00_scope.md R14). -/
theorem getV_vf_setV (s : State) {x : Nibble} (b : Byte) (h : x ≠ vf) : (s.setV x b).getV vf = s.getV vf :=
  getV_setV_of_ne s b h.symm

/-- The source of a copy keeps its value, the destination itself included (41_alu.md R142). -/
theorem getV_source_of_copy (s : State) (x y : Nibble) : (s.setV x (s.getV y)).getV y = s.getV y := by
  rw [getV_setV, ite_self]

/-- The difference modulo 256, with the wrap on the side of the minuend (41_alu.md R151). -/
theorem byte_sub_toNat (a b : Byte) : (a - b).toNat = (a.toNat + 256 - b.toNat) % 256 := by
  have := b.isLt
  rw [BitVec.toNat_sub]; omega

theorem flagByte_carryOut (a b : Byte) : flagByte (carryOut a b) = if 255 < a.toNat + b.toNat then 1 else 0 := by
  simp [flagByte, carryOut]

theorem flagByte_noBorrow (a b : Byte) : flagByte (noBorrow a b) = if b.toNat ≤ a.toNat then 1 else 0 := by
  simp [flagByte, noBorrow]

/-! ### The obligations -/

/-- Settles O22: the load writes its one register. -/
theorem loadImmediateSetsRegister : Obligations.LoadImmediateSetsRegister := by
  unfold Obligations.LoadImmediateSetsRegister
  intro x nn s
  exact ⟨decode_ld6XNN x nn, _, exec_ld6XNN x nn s, getV_setV_self s x nn, getV_vf_setV s nn, rfl⟩

/-- Settles O23: the add writes its one register, and the sum of bytes is the sum modulo 256. -/
theorem addImmediateWrapsWithoutFlag : Obligations.AddImmediateWrapsWithoutFlag := by
  unfold Obligations.AddImmediateWrapsWithoutFlag
  intro x nn s
  refine ⟨decode_add7XNN x nn, _, exec_add7XNN x nn s, ?_, getV_vf_setV s _, rfl⟩
  rw [getV_setV_self, BitVec.toNat_add]

/-- Settles O24: the copy writes its one register, with the value its source keeps. -/
theorem copySetsRegister : Obligations.CopySetsRegister := by
  unfold Obligations.CopySetsRegister
  intro x y s
  exact ⟨decode_ld8XY0 x y, _, exec_ld8XY0 x y s, getV_setV_self s x _, getV_source_of_copy s x y,
    getV_vf_setV s _, rfl⟩

/-- Settles O26: sum and carry are those of the old operands, and the carry is written last. -/
theorem addSetsSumAndCarry : Obligations.AddSetsSumAndCarry := by
  unfold Obligations.AddSetsSumAndCarry
  intro x y s
  refine ⟨decode_add8XY4 x y, _, exec_add8XY4 x y s, fun hx => ?_, ?_, rfl⟩
  · rw [getV_setResultFlag_result s _ _ hx, BitVec.toNat_add]
  · rw [getV_setResultFlag_flag, flagByte_carryOut]

/-- Settles O27: difference and no-borrow are those of the old operands, and the no-borrow flag is written last. -/
theorem subtractSetsDifferenceAndNoBorrow : Obligations.SubtractSetsDifferenceAndNoBorrow := by
  unfold Obligations.SubtractSetsDifferenceAndNoBorrow
  intro x y s
  refine ⟨decode_sub8XY5 x y, _, exec_sub8XY5 x y s, fun hx => ?_, ?_, rfl⟩
  · rw [getV_setResultFlag_result s _ _ hx, byte_sub_toNat]
  · rw [getV_setResultFlag_flag, flagByte_noBorrow]

end Sys2Proof.Machine
end

section
/-!
Load index, glyph address and decimal digits (42_index_memory.md R170, R172, R173): how the words decode
(30_encoding.md R93, R100), the next state of each instruction, and the stored address or digits as numbers.
-/

namespace Sys2Proof

/-! ### The words -/

theorem decode_ldANNN (nnn : Addr12) : decode (formatA 0xA nnn) = .instr (.ldANNN nnn) := by
  simp [decode]

theorem decode_ldFX29 (x : Nibble) : decode (formatXI 0xF x 0x29) = .instr (.ldFX29 x) := by
  simp [decode, decodeF]

theorem decode_ldFX33 (x : Nibble) : decode (formatXI 0xF x 0x33) = .instr (.ldFX33 x) := by
  simp [decode, decodeF]

end Sys2Proof

namespace Sys2Proof.Machine

/-! ### The next states -/

@[simp] theorem exec_ldANNN (nnn : Addr12) (s : State) : exec (.ldANNN nnn) s = .next (s.setI (zextAddr nnn)) := rfl

@[simp] theorem exec_ldFX29 (x : Nibble) (s : State) :
    exec (.ldFX29 x) s = .next (s.setI (glyphAddress (s.getV x))) := rfl

@[simp] theorem exec_ldFX33 (x : Nibble) (s : State) :
    exec (.ldFX33 x) s = storeAtI (decimalDigits (s.getV x)) s := rfl

/-! ### The glyph address -/

/-- The low nibble of a byte, as a number. -/
theorem byte_and_0F_toNat (b : Byte) : (b &&& 0x0F).toNat = b.toNat % 16 := by
  rw [BitVec.toNat_and]; exact Nat.and_two_pow_sub_one_eq_mod b.toNat 4

/-- The last glyph starts at 0x09B, so the address never wraps (42_index_memory.md R172). -/
theorem glyphAddress_toNat (b : Byte) : (glyphAddress b).toNat = 0x050 + b.toNat % 16 * 5 := by
  rw [glyphAddress, byte_and_0F_toNat, BitVec.toNat_ofNat, Config.fontBase]; omega

/-! ### The decimal digits -/

@[simp] theorem decimalDigits_length (b : Byte) : (decimalDigits b).length = 3 := rfl

/-- Each digit fits its byte: hundreds, tens and ones (42_index_memory.md R173). -/
theorem decimalDigits_toNat (b : Byte) :
    (decimalDigits b).map BitVec.toNat = [b.toNat / 100, b.toNat / 10 % 10, b.toNat % 10] := by
  have := b.isLt
  have hundreds : b.toNat / 100 % 256 = b.toNat / 100 := by omega
  have tens : b.toNat / 10 % 10 % 256 = b.toNat / 10 % 10 := by omega
  have ones : b.toNat % 10 % 256 = b.toNat % 10 := by omega
  simp [decimalDigits, hundreds, tens, ones]

/-- The byte read at place `k` of a stored number is its digit `k`, hundreds first. -/
theorem readByte_writeBytes_decimalDigits (m : Memory) (a : Nat) (b : Byte) (k : Nat) (hk : k < 3) :
    (readByte (writeBytes m a (decimalDigits b)) (a + k)).toNat =
      [b.toNat / 100, b.toNat / 10 % 10, b.toNat % 10][k] := by
  rw [readByte_writeBytes_inside _ _ _ _ hk]
  simp only [← decimalDigits_toNat]
  exact (List.getElem_map BitVec.toNat).symm

/-! ### The obligations -/

/-- Settles O33: the digits are one block of three bytes, stored at `I` where it fits; where it does not,
`storeAtI` raises the fault before any byte is written. -/
theorem decimalDigitsAreStored : Obligations.DecimalDigitsAreStored := by
  unfold Obligations.DecimalDigitsAreStored
  intro x s
  have digit := readByte_writeBytes_decimalDigits s.mem s.i.toNat (s.getV x)
  refine ⟨decode_ldFX33 x, fun hfits => ?_, storeAtI_of_not_fits (decimalDigits (s.getV x)) s (by simp)⟩
  exact ⟨_, storeAtI_of_fits (decimalDigits (s.getV x)) s hfits, digit 0 (by decide), digit 1 (by decide),
    digit 2 (by decide), rfl, rfl, rfl⟩

/-- Settles O30: the load writes `I` alone, and an address immediate keeps its value as a word. -/
theorem loadIndexSetsI : Obligations.LoadIndexSetsI := by
  unfold Obligations.LoadIndexSetsI
  intro nnn s
  exact ⟨decode_ldANNN nnn, _, exec_ldANNN nnn s, zextAddr_toNat nnn, rfl, rfl⟩

/-- Settles O32: the instruction writes `I` alone, with an address computed from `V[X]`. -/
theorem glyphAddressSetsI : Obligations.GlyphAddressSetsI := by
  unfold Obligations.GlyphAddressSetsI
  intro x s
  exact ⟨decode_ldFX29 x, _, exec_ldFX29 x s, glyphAddress_toNat (s.getV x), rfl, rfl⟩

end Sys2Proof.Machine
end

section
/-!
The clear (43_display.md R190): how its word decodes (30_encoding.md R94), and its next state.
-/

namespace Sys2Proof

theorem decode_cls00E0 : decode 0x00E0#16 = .instr .cls00E0 := by decide

end Sys2Proof

namespace Sys2Proof.Machine

@[simp] theorem exec_cls00E0 (s : State) : exec .cls00E0 s = .next (s.setFb blank) := rfl

/-- Settles O38: the clear puts the blank surface in place of the display and writes nothing else. -/
theorem clearTurnsEveryPixelOff : Obligations.ClearTurnsEveryPixelOff := by
  unfold Obligations.ClearTurnsEveryPixelOff
  refine ⟨decode_cls00E0, fun s => ⟨s.setFb blank, exec_cls00E0 s, fun x y _ _ => ?_, State.setFb_getV s blank vf,
    State.setFb_fault s blank, fun a => ?_⟩⟩
  · rw [State.setFb_fb]
    exact pixel_blank x y
  · rw [State.setFb_mem]

end Sys2Proof.Machine
end

section
/-!
Decoder, encoder and opcode map (30_encoding.md R92 to R104): the words of the remaining instructions, what the decoder
can make of a word, and the rows of the map.
-/

namespace Sys2Proof

/-! ### The words of the remaining instructions -/

theorem decode_ret00EE : decode 0x00EE#16 = .instr .ret00EE := by decide

theorem decode_or8XY1 (x y : Nibble) : decode (formatXYN 0x8 x y 0x1) = .instr (.or8XY1 x y) := by
  simp [decode, decode8]

theorem decode_and8XY2 (x y : Nibble) : decode (formatXYN 0x8 x y 0x2) = .instr (.and8XY2 x y) := by
  simp [decode, decode8]

theorem decode_xor8XY3 (x y : Nibble) : decode (formatXYN 0x8 x y 0x3) = .instr (.xor8XY3 x y) := by
  simp [decode, decode8]

theorem decode_shr8XY6 (x y : Nibble) : decode (formatXYN 0x8 x y 0x6) = .instr (.shr8XY6 x y) := by
  simp [decode, decode8]

theorem decode_shl8XYE (x y : Nibble) : decode (formatXYN 0x8 x y 0xE) = .instr (.shl8XYE x y) := by
  simp [decode, decode8]

theorem decode_rndCXNN (x : Nibble) (nn : Byte) : decode (formatXI 0xC x nn) = .instr (.rndCXNN x nn) := by
  simp [decode]

theorem decode_drwDXYN (x y n : Nibble) : decode (formatXYN 0xD x y n) = .instr (.drwDXYN x y n) := by
  simp [decode]

theorem decode_ldFX07 (x : Nibble) : decode (formatXI 0xF x 0x07) = .instr (.ldFX07 x) := by
  simp [decode, decodeF]

theorem decode_ldFX15 (x : Nibble) : decode (formatXI 0xF x 0x15) = .instr (.ldFX15 x) := by
  simp [decode, decodeF]

theorem decode_ldFX18 (x : Nibble) : decode (formatXI 0xF x 0x18) = .instr (.ldFX18 x) := by
  simp [decode, decodeF]

theorem decode_addFX1E (x : Nibble) : decode (formatXI 0xF x 0x1E) = .instr (.addFX1E x) := by
  simp [decode, decodeF]

theorem decode_ldFX55 (x : Nibble) : decode (formatXI 0xF x 0x55) = .instr (.ldFX55 x) := by
  simp [decode, decodeF]

theorem decode_ldFX65 (x : Nibble) : decode (formatXI 0xF x 0x65) = .instr (.ldFX65 x) := by
  simp [decode, decodeF]

/-- Settles O2, instruction by instruction: each word's decode lemma. -/
theorem decodeOfEncode : Obligations.DecodeOfEncode := by
  unfold Obligations.DecodeOfEncode
  intro i
  cases i with
  | cls00E0 => exact decode_cls00E0
  | ret00EE => exact decode_ret00EE
  | jp1NNN nnn => exact decode_jp1NNN nnn
  | call2NNN nnn => exact decode_call2NNN nnn
  | se3XNN x nn => exact decode_se3XNN x nn
  | sne4XNN x nn => exact decode_sne4XNN x nn
  | se5XY0 x y => exact decode_se5XY0 x y
  | ld6XNN x nn => exact decode_ld6XNN x nn
  | add7XNN x nn => exact decode_add7XNN x nn
  | ld8XY0 x y => exact decode_ld8XY0 x y
  | or8XY1 x y => exact decode_or8XY1 x y
  | and8XY2 x y => exact decode_and8XY2 x y
  | xor8XY3 x y => exact decode_xor8XY3 x y
  | add8XY4 x y => exact decode_add8XY4 x y
  | sub8XY5 x y => exact decode_sub8XY5 x y
  | shr8XY6 x y => exact decode_shr8XY6 x y
  | shl8XYE x y => exact decode_shl8XYE x y
  | sne9XY0 x y => exact decode_sne9XY0 x y
  | ldANNN nnn => exact decode_ldANNN nnn
  | rndCXNN x nn => exact decode_rndCXNN x nn
  | drwDXYN x y n => exact decode_drwDXYN x y n
  | ldFX07 x => exact decode_ldFX07 x
  | ldFX15 x => exact decode_ldFX15 x
  | ldFX18 x => exact decode_ldFX18 x
  | addFX1E x => exact decode_addFX1E x
  | ldFX29 x => exact decode_ldFX29 x
  | ldFX33 x => exact decode_ldFX33 x
  | ldFX55 x => exact decode_ldFX55 x
  | ldFX65 x => exact decode_ldFX65 x

/-! ### A word is built from its fields, whatever the format (30_encoding.md R92) -/

theorem formatA_fields {op : Word} {n1 : Nibble} (h : fieldN1 op = n1) : formatA n1 (fieldNNN op) = op := by
  have := op.isLt
  subst h
  apply BitVec.eq_of_toNat_eq; rw [formatA_toNat, fieldN1_toNat, fieldNNN_toNat]; omega

theorem formatXI_fields {op : Word} {n1 : Nibble} (h : fieldN1 op = n1) :
    formatXI n1 (fieldX op) (fieldNN op) = op := by
  have := op.isLt
  subst h
  apply BitVec.eq_of_toNat_eq; rw [formatXI_toNat, fieldN1_toNat, fieldX_toNat, fieldNN_toNat]; omega

theorem formatFX_fields {op : Word} {n1 : Nibble} {nn : Byte} (h : fieldN1 op = n1) (hn : fieldNN op = nn) :
    formatXI n1 (fieldX op) nn = op := hn ▸ formatXI_fields h

theorem formatXY_fields {op : Word} {n1 n4 : Nibble} (h : fieldN1 op = n1) (hn : fieldN op = n4) :
    formatXYN n1 (fieldX op) (fieldY op) n4 = op := by
  subst h hn; exact formatXYN_fields op

/-! ### What the decoder can make of a word -/

/-- The decoder's answer loses nothing: it is an instruction with this very word, or this very word refused. -/
def Decoded.Faithful (op : Word) : Decoded → Prop
  | .instr i => encode i = op
  | .unknownOpcode w => w = op

theorem decode0_faithful (op : Word) : (decode0 op).Faithful op := by
  unfold decode0
  split
  · next h => exact h.symm
  · split
    · next h => exact h.symm
    · rfl

theorem decode5_faithful {op : Word} (h1 : fieldN1 op = 0x5) : (decode5 op).Faithful op := by
  unfold decode5
  split
  · next h => exact formatXY_fields h1 h
  · rfl

theorem decode9_faithful {op : Word} (h1 : fieldN1 op = 0x9) : (decode9 op).Faithful op := by
  unfold decode9
  split
  · next h => exact formatXY_fields h1 h
  · rfl

theorem decode8_faithful {op : Word} (h1 : fieldN1 op = 0x8) : (decode8 op).Faithful op := by
  unfold decode8
  split
  case h_9 => rfl
  all_goals
    next h => exact formatXY_fields h1 (BitVec.eq_of_toNat_eq h)

theorem decodeF_faithful {op : Word} (h1 : fieldN1 op = 0xF) : (decodeF op).Faithful op := by
  unfold decodeF
  split
  case h_9 => rfl
  all_goals
    next h => exact formatFX_fields h1 (BitVec.eq_of_toNat_eq h)

theorem decode_faithful (op : Word) : (decode op).Faithful op := by
  have n1 {k : Nibble} (h : (fieldN1 op).toNat = k.toNat) : fieldN1 op = k := BitVec.eq_of_toNat_eq h
  unfold decode
  split
  · exact decode0_faithful op
  · next h => exact formatA_fields (n1 h)
  · next h => exact formatA_fields (n1 h)
  · next h => exact formatXI_fields (n1 h)
  · next h => exact formatXI_fields (n1 h)
  · next h => exact decode5_faithful (n1 h)
  · next h => exact formatXI_fields (n1 h)
  · next h => exact formatXI_fields (n1 h)
  · next h => exact decode8_faithful (n1 h)
  · next h => exact decode9_faithful (n1 h)
  · next h => exact formatA_fields (n1 h)
  · next h => exact formatXI_fields (n1 h)
  · next h => exact formatXY_fields (n1 h) rfl
  · next h => exact decodeF_faithful (n1 h)
  · rfl

/-- Settles O3: whatever branch answers, its fields are all of the word. -/
theorem encodeOfDecode : Obligations.EncodeOfDecode := by
  unfold Obligations.EncodeOfDecode
  intro op i h
  have := decode_faithful op
  rwa [h] at this

theorem decode_eq_instr_iff (op : Word) (i : Instr) : decode op = .instr i ↔ encode i = op :=
  ⟨encodeOfDecode op i, fun h => h ▸ decodeOfEncode i⟩

/-- A refused word is refused under its own name (30_encoding.md R104). -/
theorem unknownOpcode_eq {op w : Word} (h : decode op = .unknownOpcode w) : w = op := by
  have := decode_faithful op
  rwa [h] at this

/-! ### The rows of the opcode map -/

/-- An instruction's word is admitted by the instruction's row. -/
theorem pattern_admits_of_encode {op : Word} {i : Instr} (h : encode i = op) : i.pattern.admits op = true :=
  h ▸ (Laws.EncodesInItsRow.holds i).2

/-- Two rows that admit one word agree on the bits both fix. -/
theorem Pattern.values_agree {op : Word} {p q : Pattern} (hp : p.admits op = true) (hq : q.admits op = true) :
    p.value &&& q.mask = q.value &&& p.mask := by
  unfold Pattern.admits at hp hq
  rw [← beq_iff_eq.mp hp, ← beq_iff_eq.mp hq, BitVec.and_assoc, BitVec.and_assoc, BitVec.and_comm p.mask]

/-- Any two different rows of the map disagree on a bit both fix (30_encoding.md R92). -/
theorem patterns_disagree : ∀ p ∈ patterns, ∀ q ∈ patterns, p.value &&& q.mask = q.value &&& p.mask → p = q := by
  decide

theorem pattern_unique {op : Word} {p q : Pattern} (hp : p ∈ patterns) (hq : q ∈ patterns)
    (ap : p.admits op = true) (aq : q.admits op = true) : p = q :=
  patterns_disagree p hp q hq (Pattern.values_agree ap aq)

section Rows
variable {op v : Word} {n1 n4 : Nibble} {nn : Byte}

theorem eq_of_admits_FFFF (h : (⟨0xFFFF, v⟩ : Pattern).admits op = true) : v = op := by
  have hv : op &&& BitVec.allOnes 16 = v := beq_iff_eq.mp h
  rw [← hv, BitVec.and_allOnes]

theorem fieldN1_of_admits_F000 (h : (⟨0xF000, v⟩ : Pattern).admits op = true) (hv : fieldN1 v = n1) :
    fieldN1 op = n1 := by
  obtain ⟨h1, -⟩ := (Pattern.admits_iff _ op).mp h
  simpa [mask_F000, hv] using h1

theorem formatXY_of_admits_F00F (h : (⟨0xF00F, v⟩ : Pattern).admits op = true)
    (hv : fieldN1 v = n1 ∧ fieldN v = n4) : formatXYN n1 (fieldX op) (fieldY op) n4 = op := by
  obtain ⟨h1, -, -, h4⟩ := (Pattern.admits_iff _ op).mp h
  exact formatXY_fields (by simpa [mask_F00F, hv] using h1) (by simpa [mask_F00F, hv] using h4)

theorem fieldNN_eq_iff (a b : Word) : fieldNN a = fieldNN b ↔ fieldY a = fieldY b ∧ fieldN a = fieldN b := by
  simp only [BitVec.toNat_eq, fieldNN_toNat, fieldY_toNat, fieldN_toNat]; omega

theorem formatFX_of_admits_F0FF (h : (⟨0xF0FF, v⟩ : Pattern).admits op = true)
    (hv : fieldN1 v = n1 ∧ fieldNN v = nn) : formatXI n1 (fieldX op) nn = op := by
  obtain ⟨h1, -, h3, h4⟩ := (Pattern.admits_iff _ op).mp h
  have hNN : fieldNN op = fieldNN v :=
    (fieldNN_eq_iff op v).mpr ⟨by simpa [mask_F0FF] using h3, by simpa [mask_F0FF] using h4⟩
  exact formatFX_fields (by simpa [mask_F0FF, hv] using h1) (hNN.trans hv.2)

end Rows

/-- Every word that a row of the map admits is the word of an instruction of that row. -/
theorem exists_encode_of_admits {op : Word} :
    ∀ p ∈ patterns, p.admits op = true → ∃ i, encode i = op ∧ i.pattern = p := by
  simp only [patterns, List.forall_mem_append, List.forall_mem_cons]
  refine ⟨⟨⟨?_, ?_, ?_, ?_, ?_, ?_, ?_, ?_, ?_, List.forall_mem_nil _⟩,
    ⟨?_, ?_, ?_, ?_, ?_, ?_, ?_, ?_, ?_, ?_, List.forall_mem_nil _⟩⟩,
    ⟨?_, ?_, ?_, ?_, ?_, ?_, ?_, ?_, ?_, ?_, List.forall_mem_nil _⟩⟩
  · exact fun h => ⟨.cls00E0, eq_of_admits_FFFF h, rfl⟩
  · exact fun h => ⟨.ret00EE, eq_of_admits_FFFF h, rfl⟩
  · exact fun h => ⟨.jp1NNN _, formatA_fields (fieldN1_of_admits_F000 h (by decide)), rfl⟩
  · exact fun h => ⟨.call2NNN _, formatA_fields (fieldN1_of_admits_F000 h (by decide)), rfl⟩
  · exact fun h => ⟨.se3XNN _ _, formatXI_fields (fieldN1_of_admits_F000 h (by decide)), rfl⟩
  · exact fun h => ⟨.sne4XNN _ _, formatXI_fields (fieldN1_of_admits_F000 h (by decide)), rfl⟩
  · exact fun h => ⟨.se5XY0 _ _, formatXY_of_admits_F00F h (by decide), rfl⟩
  · exact fun h => ⟨.ld6XNN _ _, formatXI_fields (fieldN1_of_admits_F000 h (by decide)), rfl⟩
  · exact fun h => ⟨.add7XNN _ _, formatXI_fields (fieldN1_of_admits_F000 h (by decide)), rfl⟩
  · exact fun h => ⟨.ld8XY0 _ _, formatXY_of_admits_F00F h (by decide), rfl⟩
  · exact fun h => ⟨.or8XY1 _ _, formatXY_of_admits_F00F h (by decide), rfl⟩
  · exact fun h => ⟨.and8XY2 _ _, formatXY_of_admits_F00F h (by decide), rfl⟩
  · exact fun h => ⟨.xor8XY3 _ _, formatXY_of_admits_F00F h (by decide), rfl⟩
  · exact fun h => ⟨.add8XY4 _ _, formatXY_of_admits_F00F h (by decide), rfl⟩
  · exact fun h => ⟨.sub8XY5 _ _, formatXY_of_admits_F00F h (by decide), rfl⟩
  · exact fun h => ⟨.shr8XY6 _ _, formatXY_of_admits_F00F h (by decide), rfl⟩
  · exact fun h => ⟨.shl8XYE _ _, formatXY_of_admits_F00F h (by decide), rfl⟩
  · exact fun h => ⟨.sne9XY0 _ _, formatXY_of_admits_F00F h (by decide), rfl⟩
  · exact fun h => ⟨.ldANNN _, formatA_fields (fieldN1_of_admits_F000 h (by decide)), rfl⟩
  · exact fun h => ⟨.rndCXNN _ _, formatXI_fields (fieldN1_of_admits_F000 h (by decide)), rfl⟩
  · exact fun h => ⟨.drwDXYN _ _ _, formatXY_fields (fieldN1_of_admits_F000 h (by decide)) rfl, rfl⟩
  · exact fun h => ⟨.ldFX07 _, formatFX_of_admits_F0FF h (by decide), rfl⟩
  · exact fun h => ⟨.ldFX15 _, formatFX_of_admits_F0FF h (by decide), rfl⟩
  · exact fun h => ⟨.ldFX18 _, formatFX_of_admits_F0FF h (by decide), rfl⟩
  · exact fun h => ⟨.addFX1E _, formatFX_of_admits_F0FF h (by decide), rfl⟩
  · exact fun h => ⟨.ldFX29 _, formatFX_of_admits_F0FF h (by decide), rfl⟩
  · exact fun h => ⟨.ldFX33 _, formatFX_of_admits_F0FF h (by decide), rfl⟩
  · exact fun h => ⟨.ldFX55 _, formatFX_of_admits_F0FF h (by decide), rfl⟩
  · exact fun h => ⟨.ldFX65 _, formatFX_of_admits_F0FF h (by decide), rfl⟩

/-- Settles O4: a row's words are the words of its instructions, and no two rows share a word. -/
theorem decodeFollowsOpcodeMap : Obligations.DecodeFollowsOpcodeMap := by
  unfold Obligations.DecodeFollowsOpcodeMap
  refine ⟨fun op p hp => ?_, fun op p q hp hq => pattern_unique hp hq⟩
  simp only [decode_eq_instr_iff]
  constructor
  · exact exists_encode_of_admits p hp
  · rintro ⟨i, hi, rfl⟩
    exact pattern_admits_of_encode hi

/-- A word that no row admits is refused (30_encoding.md R104). -/
theorem decode_of_not_wordWellFormed {op : Word} (h : wordWellFormed op = false) : decode op = .unknownOpcode op := by
  cases hd : decode op with
  | unknownOpcode w => rw [unknownOpcode_eq hd]
  | instr i =>
    have hrow := pattern_admits_of_encode (encodeOfDecode op i hd)
    have hmem := (Laws.EncodesInItsRow.holds i).1
    have : wordWellFormed op = true := List.any_eq_true.mpr ⟨i.pattern, hmem, hrow⟩
    rw [this] at h; cases h

/-- Settles O1: eight closed words. -/
theorem decodeOfSpecWords : Obligations.DecodeOfSpecWords := by
  unfold Obligations.DecodeOfSpecWords
  decide

end Sys2Proof
end

section
/-!
The execute phase over all 29 instructions: the next states of the remaining instructions, what the six that can fault
answer, and one relation that says what any instruction does to the state (00_scope.md section 4).
-/

namespace Sys2Proof.Machine

/-! ### The next states of the remaining instructions -/

@[simp] theorem exec_or8XY1 (x y : Nibble) (s : State) :
    exec (.or8XY1 x y) s = .next (s.setV x (s.getV x ||| s.getV y)) := rfl

@[simp] theorem exec_and8XY2 (x y : Nibble) (s : State) :
    exec (.and8XY2 x y) s = .next (s.setV x (s.getV x &&& s.getV y)) := rfl

@[simp] theorem exec_xor8XY3 (x y : Nibble) (s : State) :
    exec (.xor8XY3 x y) s = .next (s.setV x (s.getV x ^^^ s.getV y)) := rfl

@[simp] theorem exec_shr8XY6 (x y : Nibble) (s : State) : exec (.shr8XY6 x y) s =
    .next (s.setResultFlag x (shiftSource Config.impl s x y >>> 1) (lowBitOut (shiftSource Config.impl s x y))) := rfl

@[simp] theorem exec_shl8XYE (x y : Nibble) (s : State) : exec (.shl8XYE x y) s =
    .next (s.setResultFlag x (shiftSource Config.impl s x y <<< 1) (highBitOut (shiftSource Config.impl s x y))) := rfl

@[simp] theorem exec_rndCXNN (x : Nibble) (nn : Byte) (s : State) :
    exec (.rndCXNN x nn) s = .next (s.setV x (Config.rnd s.draws &&& nn)).countDraw := rfl

@[simp] theorem exec_ldFX07 (x : Nibble) (s : State) : exec (.ldFX07 x) s = .next (s.setV x s.dt) := rfl

@[simp] theorem exec_ldFX15 (x : Nibble) (s : State) : exec (.ldFX15 x) s = .next (s.setDt (s.getV x)) := rfl

@[simp] theorem exec_ldFX18 (x : Nibble) (s : State) : exec (.ldFX18 x) s = .next (s.setSt (s.getV x)) := rfl

@[simp] theorem exec_addFX1E (x : Nibble) (s : State) :
    exec (.addFX1E x) s = .next (s.setI (indexSum s.i (s.getV x))) := rfl

@[simp] theorem exec_ldFX55 (x : Nibble) (s : State) : exec (.ldFX55 x) s = storeAtI (regBlock s x) s := rfl

/-! ### The block load -/

/-- `V[0]` to `V[X]` as `FX65` loads them from the memory of `s` (42_index_memory.md R175). -/
def State.loaded (s : State) (x : Nibble) : State :=
  s.setRegs (loadRegs s.v 0 (readBytes s.mem s.i.toNat (x.toNat + 1)))

theorem exec_ldFX65_of_fits (x : Nibble) (s : State) (h : s.i.toNat + x.toNat + 1 ≤ 4096) :
    exec (.ldFX65 x) s = .next (s.loaded x) := by
  simp only [exec, execLdFX65, (memRead_eq_some s s.i (x.toNat + 1) _).mpr ⟨.inr (by omega), rfl⟩, State.loaded]

theorem exec_ldFX65_of_not_fits (x : Nibble) (s : State) (h : 4096 < s.i.toNat + x.toNat + 1) :
    exec (.ldFX65 x) s = .next (s.latch (.outOfBoundsRead s.i)) := by
  simp only [exec, execLdFX65, (memRead_eq_none s s.i (x.toNat + 1)).mpr ⟨by omega, by omega⟩]; rfl

/-- A register after the load (42_index_memory.md R175). -/
theorem State.loaded_getV (s : State) (x r : Nibble) :
    (s.loaded x).getV r = if r.toNat ≤ x.toNat then readByte s.mem (s.i.toNat + r.toNat) else s.getV r := by
  simp only [State.loaded, getV_setRegs_loadRegs, Nat.lt_succ_iff]

/-! ### The draw -/

/-- What the draw of `N` rows leaves on the display, with the hit (43_display.md R192). -/
def State.drawn (s : State) (rx ry n : Nibble) : Canvas :=
  drawRows (startColumn s rx) (startRow s ry) ⟨s.fb, false⟩ (readBytes s.mem s.i.toNat n.toNat)

/-- The sprite of `N` rows lies in memory; a sprite of no rows always does (43_display.md R192). -/
def State.SpriteFits (s : State) (n : Nibble) : Prop := n.toNat = 0 ∨ s.i.toNat + n.toNat ≤ 4096

theorem exec_drwDXYN_of_fits {s : State} {n : Nibble} (rx ry : Nibble) (h : s.SpriteFits n) :
    exec (.drwDXYN rx ry n) s = .next ((s.setFb (s.drawn rx ry n).fb).setFlag (s.drawn rx ry n).hit) := by
  simp only [exec, execDrwDXYN, (memRead_eq_some s s.i n.toNat _).mpr ⟨h, rfl⟩, State.drawn, getV_and_63, getV_and_31]

theorem exec_drwDXYN_of_not_fits {s : State} {n : Nibble} (rx ry : Nibble) (h1 : 1 ≤ n.toNat)
    (h : 4096 < s.i.toNat + n.toNat) :
    exec (.drwDXYN rx ry n) s = .next (s.latch (.outOfBoundsRead s.i)) := by
  simp only [exec, execDrwDXYN, (memRead_eq_none s s.i n.toNat).mpr ⟨h1, h⟩]; rfl

/-! ### The instructions that can fault, case by case -/

section Cases
variable {s t : State}

theorem exec_ret00EE_cases (h : exec .ret00EE s = .next t) :
    (∃ k w, k.val + 1 = s.sp.val ∧ s.stack[k.val]? = some w ∧ t = (s.setStack s.stack k).setPc w) ∨
    t = s.latch .stackUnderflow := by
  rcases Nat.eq_zero_or_pos s.sp.val with h0 | hpos
  · rw [exec_ret00EE_of_empty s h0] at h
    cases h; exact .inr rfl
  · obtain ⟨w, u, hp, he⟩ := exec_ret00EE_of_pos s hpos
    obtain ⟨hk, hw, hu⟩ := pop_eq_some s u w hp
    rw [he] at h
    cases h; exact .inl ⟨u.sp, w, hk, hw, by rw [← hu]⟩

theorem exec_call2NNN_cases {nnn : Addr12} (h : exec (.call2NNN nnn) s = .next t) :
    (∃ hsp : s.sp.val < 16, t = (s.setStack (s.stack.set s.sp.val s.pc hsp)
      ⟨s.sp.val + 1, Nat.succ_lt_succ hsp⟩).setPc (zextAddr nnn)) ∨
    t = s.latch (.stackOverflow s.pc) := by
  have := s.sp.isLt
  by_cases hsp : s.sp.val < 16
  · rw [exec_call2NNN_of_lt nnn s hsp] at h
    cases h; exact .inl ⟨hsp, rfl⟩
  · rw [exec_call2NNN_of_full nnn s (by omega)] at h
    cases h; exact .inr rfl

theorem exec_ldFX65_cases {x : Nibble} (h : exec (.ldFX65 x) s = .next t) :
    t = s.loaded x ∨ t = s.latch (.outOfBoundsRead s.i) := by
  rcases Nat.lt_or_ge 4096 (s.i.toNat + x.toNat + 1) with hx | hx
  · rw [exec_ldFX65_of_not_fits x s hx] at h
    cases h; exact .inr rfl
  · rw [exec_ldFX65_of_fits x s hx] at h
    cases h; exact .inl rfl

theorem exec_drwDXYN_cases {rx ry n : Nibble} (h : exec (.drwDXYN rx ry n) s = .next t) :
    t = (s.setFb (s.drawn rx ry n).fb).setFlag (s.drawn rx ry n).hit ∨ t = s.latch (.outOfBoundsRead s.i) := by
  by_cases hn : s.SpriteFits n
  · rw [exec_drwDXYN_of_fits rx ry hn] at h
    cases h; exact .inl rfl
  · unfold State.SpriteFits at hn
    rw [exec_drwDXYN_of_not_fits rx ry (by omega) (by omega)] at h
    cases h; exact .inr rfl

end Cases

/-! ### What any instruction can do -/

/-- The faults an instruction can raise, with their values (60_exceptions.md R230 to R234). -/
inductive Raises (s : State) : Instr → Fault → Prop
  | ret00EE : Raises s .ret00EE .stackUnderflow
  | call2NNN (nnn : Addr12) : Raises s (.call2NNN nnn) (.stackOverflow s.pc)
  | ldFX33 (x : Nibble) : Raises s (.ldFX33 x) (.outOfBoundsWrite s.i)
  | ldFX55 (x : Nibble) : Raises s (.ldFX55 x) (.outOfBoundsWrite s.i)
  | ldFX65 (x : Nibble) : Raises s (.ldFX65 x) (.outOfBoundsRead s.i)
  | drwDXYN (rx ry n : Nibble) : Raises s (.drwDXYN rx ry n) (.outOfBoundsRead s.i)

/-- What an instruction can make of the state `s`: the update, with what bounds the values it writes outside the
registers and the display. -/
inductive Effect (s : State) : Instr → State → Prop
  | raised {i : Instr} {f : Fault} (h : Raises s i f) : Effect s i (s.latch f)
  | register (i : Instr) (x : Nibble) (b : Byte) : Effect s i (s.setV x b)
  | result (i : Instr) (x : Nibble) (b : Byte) (c : Bool) : Effect s i (s.setResultFlag x b c)
  | registers (i : Instr) (v : Vector Byte 16) : Effect s i (s.setRegs v)
  | random (x : Nibble) (nn b : Byte) : Effect s (.rndCXNN x nn) (s.setV x b).countDraw
  | skip (i : Instr) (c : Bool) : Effect s i (s.setPc (if c then s.pc + 2 else s.pc))
  | jump (i : Instr) (nnn : Addr12) : Effect s i (s.setPc (zextAddr nnn))
  | call (nnn : Addr12) (h : s.sp.val < 16) : Effect s (.call2NNN nnn)
      ((s.setStack (s.stack.set s.sp.val s.pc h) ⟨s.sp.val + 1, Nat.succ_lt_succ h⟩).setPc (zextAddr nnn))
  | ret (k : Fin 17) (w : Word) (h : s.stack[k.val]? = some w) :
      Effect s .ret00EE ((s.setStack s.stack k).setPc w)
  | loadIndex (nnn : Addr12) : Effect s (.ldANNN nnn) (s.setI (zextAddr nnn))
  | addIndex (x : Nibble) : Effect s (.addFX1E x) (s.setI (indexSum s.i (s.getV x)))
  | glyph (x : Nibble) : Effect s (.ldFX29 x) (s.setI (glyphAddress (s.getV x)))
  | digits (x : Nibble) (bs : List Byte) (h : bs = [] ∨ s.i.toNat + bs.length ≤ 4096) :
      Effect s (.ldFX33 x) (s.setMem (writeBytes s.mem s.i.toNat bs))
  | store (x : Nibble) (bs : List Byte) (h : bs = [] ∨ s.i.toNat + bs.length ≤ 4096) :
      Effect s (.ldFX55 x) (s.setMem (writeBytes s.mem s.i.toNat bs))
  | delay (x : Nibble) (b : Byte) : Effect s (.ldFX15 x) (s.setDt b)
  | sound (x : Nibble) (b : Byte) : Effect s (.ldFX18 x) (s.setSt b)
  | clear : Effect s .cls00E0 (s.setFb blank)
  | draw (rx ry n : Nibble) (fb : Surface) (c : Bool) : Effect s (.drwDXYN rx ry n) ((s.setFb fb).setFlag c)

theorem effect_skipIf {s t : State} {c : Bool} (i : Instr) (h : skipIf c s = .next t) : Effect s i t := by
  rw [skipIf_eq] at h
  cases h; exact .skip i c

/-- Every state that the execute phase answers is one of the effects of its instruction. -/
theorem effect_of_exec {i : Instr} {s t : State} (h : exec i s = .next t) : Effect s i t := by
  cases i with
  | cls00E0 => cases h; exact .clear
  | ret00EE =>
    rcases exec_ret00EE_cases h with ⟨k, w, -, hw, rfl⟩ | rfl
    · exact .ret k w hw
    · exact .raised .ret00EE
  | jp1NNN nnn => cases h; exact .jump _ nnn
  | call2NNN nnn =>
    rcases exec_call2NNN_cases h with ⟨hsp, rfl⟩ | rfl
    · exact .call nnn hsp
    · exact .raised (.call2NNN nnn)
  | se3XNN x nn => exact effect_skipIf _ h
  | sne4XNN x nn => exact effect_skipIf _ h
  | se5XY0 x y => exact effect_skipIf _ h
  | sne9XY0 x y => exact effect_skipIf _ h
  | ld6XNN x nn => cases h; exact .register _ x _
  | add7XNN x nn => cases h; exact .register _ x _
  | ld8XY0 x y => cases h; exact .register _ x _
  | or8XY1 x y => cases h; exact .register _ x _
  | and8XY2 x y => cases h; exact .register _ x _
  | xor8XY3 x y => cases h; exact .register _ x _
  | add8XY4 x y => cases h; exact .result _ x _ _
  | sub8XY5 x y => cases h; exact .result _ x _ _
  | shr8XY6 x y => cases h; exact .result _ x _ _
  | shl8XYE x y => cases h; exact .result _ x _ _
  | ldANNN nnn => cases h; exact .loadIndex nnn
  | rndCXNN x nn => cases h; exact .random x nn _
  | drwDXYN rx ry n =>
    rcases exec_drwDXYN_cases h with rfl | rfl
    · exact .draw rx ry n _ _
    · exact .raised (.drwDXYN rx ry n)
  | ldFX07 x => cases h; exact .register _ x _
  | ldFX15 x => cases h; exact .delay x _
  | ldFX18 x => cases h; exact .sound x _
  | addFX1E x => cases h; exact .addIndex x
  | ldFX29 x => cases h; exact .glyph x
  | ldFX33 x =>
    rcases storeAtI_cases _ s t h with ⟨hfit, rfl⟩ | ⟨-, rfl⟩
    · exact .digits x _ hfit
    · exact .raised (.ldFX33 x)
  | ldFX55 x =>
    rcases storeAtI_cases _ s t h with ⟨hfit, rfl⟩ | ⟨-, rfl⟩
    · exact .store x _ hfit
    · exact .raised (.ldFX55 x)
  | ldFX65 x =>
    rcases exec_ldFX65_cases h with rfl | rfl
    · exact .registers _ _
    · exact .raised (.ldFX65 x)

/-! ### Every instruction answers a next state -/

theorem storeAtI_answers (bs : List Byte) (s : State) : ∃ t, storeAtI bs s = .next t := by
  unfold storeAtI
  split
  · exact ⟨_, rfl⟩
  · exact ⟨_, rfl⟩

/-- A bound that fails is answered by the faulted state, so nothing is left without a next state (log 4). -/
theorem exec_answers (i : Instr) (s : State) : ∃ t, exec i s = .next t := by
  cases i with
  | ret00EE =>
    rcases Nat.eq_zero_or_pos s.sp.val with h | h
    · exact ⟨_, exec_ret00EE_of_empty s h⟩
    · obtain ⟨w, u, -, he⟩ := exec_ret00EE_of_pos s h
      exact ⟨_, he⟩
  | call2NNN nnn =>
    rcases Nat.lt_or_ge s.sp.val 16 with h | h
    · exact ⟨_, exec_call2NNN_of_lt nnn s h⟩
    · exact ⟨_, exec_call2NNN_of_full nnn s (Nat.le_antisymm (Nat.lt_succ_iff.mp s.sp.isLt) h)⟩
  | drwDXYN rx ry n =>
    by_cases h : s.SpriteFits n
    · exact ⟨_, exec_drwDXYN_of_fits rx ry h⟩
    · unfold State.SpriteFits at h
      exact ⟨_, exec_drwDXYN_of_not_fits rx ry (by omega) (by omega)⟩
  | ldFX33 x => exact storeAtI_answers _ s
  | ldFX55 x => exact storeAtI_answers _ s
  | ldFX65 x =>
    rcases Nat.lt_or_ge 4096 (s.i.toNat + x.toNat + 1) with h | h
    · exact ⟨_, exec_ldFX65_of_not_fits x s h⟩
    · exact ⟨_, exec_ldFX65_of_fits x s h⟩
  | _ => exact ⟨_, rfl⟩

theorem instrStep_answers (s : State) : ∃ t, instrStep s = .next t := by
  unfold instrStep
  split
  · exact ⟨s, rfl⟩
  · split
    · exact ⟨_, raise_eq _ s⟩
    · split
      · exact ⟨_, raise_eq _ s.advance⟩
      · exact exec_answers _ s.advance

/-- Settles O10: the instruction step answers, and the ticks after it keep the answer. -/
theorem stepAnswersNextState : Obligations.StepAnswersNextState := by
  unfold Obligations.StepAnswersNextState
  intro s
  obtain ⟨u, hu⟩ := instrStep_answers s
  unfold step
  split
  · exact ⟨s, rfl⟩
  · rw [hu]; exact ⟨_, rfl⟩

/-! ### Faults of the execute phase -/

/-- An effect is a fault, or leaves the latch alone. -/
theorem Effect.fault_cases {i : Instr} {s t : State} (h : Effect s i t) :
    t.fault = s.fault ∨ ∃ f, Raises s i f ∧ t = s.latch f := by
  cases h with
  | raised hf => exact .inr ⟨_, hf, rfl⟩
  | _ => exact .inl rfl

/-- A fault that was not latched before comes from the instruction, and nothing else changes (60_exceptions.md R241). -/
theorem raises_of_exec {i : Instr} {s t : State} {f : Fault} (hs : s.fault = none) (h : exec i s = .next t)
    (ht : t.fault = some f) : Raises s i f ∧ t = s.latch f := by
  rcases (effect_of_exec h).fault_cases with hsame | ⟨g, hg, rfl⟩
  · rw [hsame, hs] at ht; cases ht
  · rw [State.latch_fault] at ht
    cases ht; exact ⟨hg, rfl⟩

/-- Settles O11: the only effect that sets the latch sets nothing else. -/
theorem executeFaultsArePrecise : Obligations.ExecuteFaultsArePrecise := by
  unfold Obligations.ExecuteFaultsArePrecise
  intro i s t f hs h ht
  exact (raises_of_exec hs h ht).2

/-- Settles O12, by the cases of `Raises`. -/
theorem onlyTheseInstructionsFault : Obligations.OnlyTheseInstructionsFault := by
  unfold Obligations.OnlyTheseInstructionsFault
  intro i s t f hs h ht
  obtain ⟨hf, -⟩ := raises_of_exec hs h ht
  cases hf with
  | call2NNN nnn => exact .inl ⟨⟨nnn, rfl⟩, rfl⟩
  | ret00EE => exact .inr (.inl ⟨rfl, rfl⟩)
  | ldFX33 x => exact .inr (.inr (.inl ⟨⟨x, .inl rfl⟩, rfl⟩))
  | ldFX55 x => exact .inr (.inr (.inl ⟨⟨x, .inr rfl⟩, rfl⟩))
  | ldFX65 x => exact .inr (.inr (.inr ⟨.inl ⟨x, rfl⟩, rfl⟩))
  | drwDXYN rx ry n => exact .inr (.inr (.inr ⟨.inr ⟨rx, ry, n, rfl⟩, rfl⟩))

end Sys2Proof.Machine
end

section
/-!
The frame tick and the step, phase by phase (60_exceptions.md R238, R250 to R253): what each answers where its condition
holds, and that many ticks are one tick repeated.
-/

namespace Sys2Proof.Machine

/-! ### One tick, and many -/

theorem State.tick_of_unfaulted {s : State} (h : s.fault = none) :
    s.tick = (s.setDt (countDown s.dt)).setSt (countDown s.st) := by
  simp only [State.tick, h]

theorem State.tick_of_faulted {s : State} (h : s.fault ≠ none) : s.tick = s := by
  obtain ⟨f, hf⟩ := Option.ne_none_iff_exists'.mp h
  simp only [State.tick, hf]

theorem State.ticks_of_unfaulted {s : State} (n : Nat) (h : s.fault = none) :
    s.ticks n = (s.setDt (countDownBy n s.dt)).setSt (countDownBy n s.st) := by
  simp only [State.ticks, h]

theorem State.ticks_of_faulted {s : State} (n : Nat) (h : s.fault ≠ none) : s.ticks n = s := by
  obtain ⟨f, hf⟩ := Option.ne_none_iff_exists'.mp h
  simp only [State.ticks, hf]

@[simp] theorem countDown_toNat (t : Byte) : (countDown t).toNat = t.toNat - 1 := by
  unfold countDown
  split
  · next h => rw [BitVec.toNat_sub_of_le (show 1 ≤ t from BitVec.le_def.mpr h)]; rfl
  · omega

@[simp] theorem countDownBy_toNat (n : Nat) (t : Byte) : (countDownBy n t).toNat = t.toNat - n := by
  have := t.isLt
  unfold countDownBy
  split
  · next h => simp [h]
  · rw [BitVec.toNat_ofNat]; omega

theorem countDownBy_zero (t : Byte) : countDownBy 0 t = t := by
  apply BitVec.eq_of_toNat_eq; simp

/-- One more tick, after `n` of them. -/
theorem countDown_countDownBy (n : Nat) (t : Byte) : countDown (countDownBy n t) = countDownBy (n + 1) t := by
  apply BitVec.eq_of_toNat_eq; simp; omega

theorem State.ticks_zero (s : State) : s.ticks 0 = s := by
  by_cases h : s.fault = none
  · rw [s.ticks_of_unfaulted 0 h, countDownBy_zero, countDownBy_zero]; rfl
  · exact s.ticks_of_faulted 0 h

theorem State.ticks_succ (s : State) (n : Nat) : s.ticks (n + 1) = (s.ticks n).tick := by
  by_cases h : s.fault = none
  · have hn : (s.ticks n).fault = none := by rw [State.ticks_fault, h]
    rw [State.tick_of_unfaulted hn, s.ticks_of_unfaulted n h, s.ticks_of_unfaulted (n + 1) h]
    simp only [State.setSt_dt, State.setDt_dt, State.setSt_st, countDown_countDownBy]; rfl
  · rw [s.ticks_of_faulted n h, s.ticks_of_faulted (n + 1) h, State.tick_of_faulted h]

/-- Settles O15, by induction on the number of ticks. -/
theorem ticksAreRepeatedTick : Obligations.TicksAreRepeatedTick := by
  unfold Obligations.TicksAreRepeatedTick
  intro s n
  induction n with
  | zero => exact s.ticks_zero
  | succ n ih => rw [s.ticks_succ, ih, Function.iterate_succ_apply']

theorem State.soundOn_iff (s : State) : s.soundOn = true ↔ s.st ≠ 0 := by
  simp [State.soundOn]

/-- Settles O14: `n` ticks are the `n` at once, which subtract `n` and stop at 0. -/
theorem timersStopAtZero : Obligations.TimersStopAtZero := by
  unfold Obligations.TimersStopAtZero
  intro s n h
  rw [← ticksAreRepeatedTick s n, State.soundOn_iff, s.ticks_of_unfaulted n h]
  refine ⟨countDownBy_toNat n s.dt, countDownBy_toNat n s.st, ?_⟩
  simp only [State.setSt_st, ne_eq, BitVec.toNat_eq, countDownBy_toNat, BitVec.ofNat_eq_ofNat,
    BitVec.toNat_ofNat, Nat.zero_mod]
  omega

/-- Settles O13: the tick writes the two timers of a core without a fault, each through `countDown`. -/
theorem tickLowersBothTimers : Obligations.TickLowersBothTimers := by
  unfold Obligations.TickLowersBothTimers
  refine ⟨fun s h => ?_, fun s => State.tick_of_faulted⟩
  rw [State.tick_of_unfaulted h]
  exact ⟨rfl, countDown_toNat s.dt, countDown_toNat s.st⟩

/-! ### The instruction step, phase by phase -/

section Phases
variable {s t : State} {op : Word}

theorem instrStep_of_faulted (h : s.fault ≠ none) : instrStep s = .next s := by
  obtain ⟨f, hf⟩ := Option.ne_none_iff_exists'.mp h
  simp only [instrStep, hf]

theorem instrStep_of_outside (h : s.fault = none) (hpc : 4096 < s.pc.toNat + 2) :
    instrStep s = .next (s.latch (.outOfBoundsRead s.pc)) := by
  simp only [instrStep, h, (fetch_eq_none s).mpr hpc]; rfl

theorem instrStep_of_unknown (h : s.fault = none) (ho : fetch s = some op) (hd : decode op = .unknownOpcode op) :
    instrStep s = .next (s.advance.latch (.unknownOpcode op)) := by
  simp only [instrStep, h, ho, hd]; rfl

theorem instrStep_of_instr {i : Instr} (h : s.fault = none) (ho : fetch s = some op) (hd : decode op = .instr i) :
    instrStep s = exec i s.advance := by
  simp only [instrStep, h, ho, hd]

/-- Where both bytes at `PC` lie in memory, what they decode to is executed. -/
theorem instrStep_of_bytes {i : Instr} (h : s.fault = none) (hpc : s.pc.toNat + 2 ≤ 4096)
    (hd : decodeBytes (readByte s.mem s.pc.toNat) (readByte s.mem (s.pc.toNat + 1)) = .instr i) :
    instrStep s = exec i s.advance :=
  instrStep_of_instr h ((fetch_eq_some s _).mpr ⟨hpc, rfl⟩) hd

theorem step_of_faulted (h : s.fault ≠ none) : step s = .next s := by
  obtain ⟨f, hf⟩ := Option.ne_none_iff_exists'.mp h
  simp only [step, hf]

theorem step_of_instrStep (h : s.fault = none) (ht : instrStep s = .next t) :
    step s = .next (t.ticks (Config.ticksAfter s.turns)).countTurn := by
  simp only [step, h, ht, betweenSteps]

end Phases

/-- Settles O9: each function of the step and the tick tests the latch first. -/
theorem faultedCoreIsFrozen : Obligations.FaultedCoreIsFrozen := by
  unfold Obligations.FaultedCoreIsFrozen
  intro s h
  exact ⟨instrStep_of_faulted h, step_of_faulted h, State.tick_of_faulted h, fun n => s.ticks_of_faulted n h⟩

/-- Settles O8: the fetch answers no word there. -/
theorem fetchOutsideMemoryFaults : Obligations.FetchOutsideMemoryFaults := by
  unfold Obligations.FetchOutsideMemoryFaults
  intro s h hpc
  exact instrStep_of_outside h hpc

/-- Settles O5: the decoder refuses a word that no row admits, and the faulted core is frozen. -/
theorem unknownWordFaults : Obligations.UnknownWordFaults := by
  unfold Obligations.UnknownWordFaults
  intro s op h ho hw
  have hstep := instrStep_of_unknown h ho (decode_of_not_wordWellFormed hw)
  refine ⟨hstep, fun t ht => instrStep_of_faulted ?_⟩
  rw [hstep] at ht
  cases ht; simp

/-- Settles O7: the phases of the step, then the ticks after it. -/
theorem stepRunsDecodedInstruction : Obligations.StepRunsDecodedInstruction := by
  unfold Obligations.StepRunsDecodedInstruction
  intro s t i h hpc hd ht
  have hstep := (instrStep_of_bytes h hpc hd).trans ht
  exact ⟨hstep, step_of_instrStep h hstep⟩

/-- Settles O21: the jump puts back the `PC` that the fetch advanced. -/
theorem selfJumpChangesOnlyTimers : Obligations.SelfJumpChangesOnlyTimers := by
  unfold Obligations.SelfJumpChangesOnlyTimers
  intro s nnn h hnnn hpc hd
  have hself : s.pc = zextAddr nnn := BitVec.eq_of_toNat_eq (by rw [hnnn, zextAddr_toNat])
  have hstep : instrStep s = .next s := by
    rw [instrStep_of_bytes h hpc hd, exec_jp1NNN, ← hself]; rfl
  exact ⟨hstep, step_of_instrStep h hstep⟩

end Sys2Proof.Machine
end

section
/-!
The invariant (10_state.md R25, R28, 40_control_flow.md R121): the execute phase establishes it from what holds after
fetch, so every step keeps it, and so does every event.
-/

namespace Sys2Proof.Machine

/-- Settles O58, by evaluation of the reset state. -/
theorem resetMeetsInvariant : Obligations.ResetMeetsInvariant := by
  unfold Obligations.ResetMeetsInvariant
  decide

/-! ### Updates that keep the invariant -/

/-- The invariant speaks of memory, `I`, `PC` and the stack's slots only. -/
theorem State.Inv.congr {s t : State} (h : s.Inv) (hmem : t.mem = s.mem) (hi : t.i = s.i) (hpc : t.pc = s.pc)
    (hstack : t.stack = s.stack) : t.Inv := by
  unfold State.Inv
  rw [hmem, hi, hpc, hstack]; exact h

theorem State.Inv.setPc {s : State} (h : s.Inv) {w : Word} (hw : w.toNat ≤ 0x1002) : (s.setPc w).Inv := by
  obtain ⟨hmem, hi, -, hstack⟩ := h
  exact ⟨hmem, hi, hw, hstack⟩

theorem State.Inv.setI {s : State} (h : s.Inv) {w : Word} (hw : w.toNat ≤ 0xFFF) : (s.setI w).Inv := by
  obtain ⟨hmem, -, hpc, hstack⟩ := h
  exact ⟨hmem, hw, hpc, hstack⟩

theorem State.Inv.setMem {s : State} (h : s.Inv) {m : Memory} (hm : Memory.wf m) : (s.setMem m).Inv := by
  obtain ⟨-, hi, hpc, hstack⟩ := h
  exact ⟨hm, hi, hpc, hstack⟩

/-- A block stored at `I` where it fits (20_memory.md R60). -/
theorem State.Inv.store {s : State} (h : s.Inv) {bs : List Byte} (hb : bs = [] ∨ s.i.toNat + bs.length ≤ 4096) :
    (s.setMem (writeBytes s.mem s.i.toNat bs)).Inv :=
  h.setMem (wf_writeBytes bs hb h.1)

theorem State.Inv.push {s : State} (h : s.Inv) {w : Word} (hsp : s.sp.val < 16) (n : Fin 17) (hw : w.toNat ≤ 0x1000) :
    (s.setStack (s.stack.set s.sp.val w hsp) n).Inv := by
  obtain ⟨hmem, hi, hpc, hstack⟩ := h
  refine ⟨hmem, hi, hpc, fun k => ?_⟩
  show (s.stack.set s.sp.val w hsp)[k.val].toNat ≤ 0x1000
  rw [Vector.getElem_set]
  split
  · exact hw
  · exact hstack k

/-! ### The values written to `PC` and `I` -/

theorem zextAddr_le (nnn : Addr12) : (zextAddr nnn).toNat ≤ 0xFFF := by
  have := nnn.isLt
  rw [zextAddr_toNat]; omega

/-- The overflow rule keeps `I` inside memory (42_index_memory.md R171). -/
theorem indexSum_toNat (i : Word) (b : Byte) :
    (indexSum i b).toNat = if 0xFFF < i.toNat + b.toNat then 1 else i.toNat + b.toNat := by
  unfold indexSum
  split
  · rfl
  · rw [BitVec.toNat_ofNat]; omega

theorem indexSum_le (i : Word) (b : Byte) : (indexSum i b).toNat ≤ 0xFFF := by
  rw [indexSum_toNat]; split <;> omega

theorem glyphAddress_le (b : Byte) : (glyphAddress b).toNat ≤ 0xFFF := by
  rw [glyphAddress_toNat]; omega

/-- A slot of the stack, however it is named. -/
theorem State.Inv.slot_le {s : State} (h : s.Inv) {k : Nat} {w : Word} (hw : s.stack[k]? = some w) :
    w.toNat ≤ 0x1000 := by
  obtain ⟨-, -, -, hstack⟩ := h
  obtain ⟨hk, rfl⟩ := Vector.getElem?_eq_some_iff.mp hw
  exact hstack ⟨k, hk⟩

/-! ### The step -/

/-- What holds when the execute phase begins: the invariant, with `PC` at most one past the last byte of memory. -/
def State.EntryInv (s : State) : Prop := s.Inv ∧ s.pc.toNat ≤ 0x1000

theorem Effect.keeps_inv {i : Instr} {s t : State} (hs : s.EntryInv) (h : Effect s i t) : t.Inv := by
  obtain ⟨hinv, hpc⟩ := hs
  have keep (t : State) := @State.Inv.congr s t hinv
  cases h with
  | raised => exact keep _ rfl rfl rfl rfl
  | register => exact keep _ rfl rfl rfl rfl
  | result => exact keep _ rfl rfl rfl rfl
  | registers => exact keep _ rfl rfl rfl rfl
  | random => exact keep _ rfl rfl rfl rfl
  | delay => exact keep _ rfl rfl rfl rfl
  | sound => exact keep _ rfl rfl rfl rfl
  | clear => exact keep _ rfl rfl rfl rfl
  | draw => exact keep _ rfl rfl rfl rfl
  | skip _ c =>
    refine hinv.setPc ?_
    cases c
    · exact Nat.le_trans hpc (by decide)
    · rw [if_pos rfl, BitVec.toNat_add]
      exact Nat.le_trans (Nat.mod_le ..) (Nat.add_le_add_right hpc 2)
  | jump _ nnn => exact hinv.setPc (Nat.le_trans (zextAddr_le nnn) (by decide))
  | call nnn hsp => exact (hinv.push hsp _ hpc).setPc (Nat.le_trans (zextAddr_le nnn) (by decide))
  | ret k w hw =>
    exact State.Inv.setPc (hinv.congr rfl rfl rfl rfl) (Nat.le_trans (hinv.slot_le hw) (by decide))
  | loadIndex nnn => exact hinv.setI (zextAddr_le nnn)
  | addIndex x => exact hinv.setI (indexSum_le _ _)
  | glyph x => exact hinv.setI (glyphAddress_le _)
  | digits x bs hb => exact hinv.store hb
  | store x bs hb => exact hinv.store hb

/-- Fetch leaves room for the advance (30_encoding.md R90). -/
theorem State.Inv.advance {s : State} {op : Word} (h : s.Inv) (ho : fetch s = some op) : s.advance.EntryInv := by
  obtain ⟨hfit, -⟩ := (fetch_eq_some s op).mp ho
  have hpc : s.advance.pc.toNat ≤ 0x1000 := by rw [advance_toNat s (by omega)]; exact hfit
  exact ⟨h.setPc (Nat.le_trans hpc (by decide)), hpc⟩

theorem instrStep_keeps_inv {s t : State} (hs : s.Inv) (h : instrStep s = .next t) : t.Inv := by
  rcases instrStep_cases s t h with ⟨-, rfl⟩ | ⟨-, -, rfl⟩ | ⟨-, op, w, ho, -, rfl⟩ | ⟨-, op, i, ho, -, hi⟩
  · exact hs
  · exact hs.congr rfl rfl rfl rfl
  · exact (hs.advance ho).1.congr rfl rfl rfl rfl
  · exact (effect_of_exec hi).keeps_inv (hs.advance ho)

/-- Settles O59: the instruction step keeps the invariant, and the ticks after it touch only what it does not speak
of. -/
theorem stepKeepsInvariant : Obligations.StepKeepsInvariant := by
  unfold Obligations.StepKeepsInvariant
  intro s t hs h
  rcases step_cases s t h with ⟨-, rfl⟩ | ⟨-, u, hu, rfl⟩
  · exact hs
  · refine (instrStep_keeps_inv hs hu).congr ?_ ?_ ?_ ?_
    · rw [State.countTurn_mem, State.ticks_mem]
    · rw [State.countTurn_i, State.ticks_i]
    · rw [State.countTurn_pc, State.ticks_pc]
    · rw [State.countTurn_stack, State.ticks_stack]

/-! ### Every interleaving -/

theorem deliver_keeps_inv (e : Event) {s : State} (hs : s.Inv) : ∃ t, deliver e s = .next t ∧ t.Inv := by
  cases e with
  | step =>
    obtain ⟨t, ht⟩ := instrStep_answers s
    exact ⟨t, ht, instrStep_keeps_inv hs ht⟩
  | tick => exact ⟨_, rfl, hs.congr s.tick_mem s.tick_i s.tick_pc s.tick_stack⟩
  | reset => exact ⟨_, rfl, State.Inv.congr resetMeetsInvariant rfl rfl rfl rfl⟩

/-- Settles O60, by induction on the events. -/
theorem everyInterleavingKeepsInvariant : Obligations.EveryInterleavingKeepsInvariant := by
  unfold Obligations.EveryInterleavingKeepsInvariant
  intro es
  induction es with
  | nil => exact fun s hs => ⟨s, rfl, hs⟩
  | cons e es ih =>
    intro s hs
    obtain ⟨t, ht, hinv⟩ := deliver_keeps_inv e hs
    simp only [deliverAll, ht]
    exact ih t hinv

end Sys2Proof.Machine
end

section
/-!
What single instructions compute: return after call (40_control_flow.md R121, R123), logic and shifts (41_alu.md R143 to
R145, R152, R153), the index sum (42_index_memory.md R171), random and timers (44_timers_random.md R210 to R213).
-/

namespace Sys2Proof.Machine

/-! ### Return after call -/

/-- Settles O19: the entry that the call pushed is the one the return pops, and `SP` falls back by one. -/
theorem returnUndoesCall : Obligations.ReturnUndoesCall := by
  unfold Obligations.ReturnUndoesCall
  intro nnn s t u hs ht hu
  rw [exec_call2NNN_of_lt nnn s hs] at ht
  cases ht
  obtain ⟨husp, hustack⟩ := hu
  have hlen : u.sp.val = s.sp.val + 1 := by rw [husp]; rfl
  obtain ⟨w, v, hp, he⟩ := exec_ret00EE_of_pos u (by omega)
  obtain ⟨hv, hslot, -⟩ := pop_eq_some u v w hp
  have hsp : v.sp.val = s.sp.val := by omega
  refine ⟨v.setPc w, he, ?_, Fin.ext hsp⟩
  rw [hustack, hsp] at hslot
  simpa [eq_comm] using hslot

/-! ### Logic -/

/-- Settles O25: each writes the bitwise operation of the two old bytes. -/
theorem logicWorksBitByBit : Obligations.LogicWorksBitByBit := by
  unfold Obligations.LogicWorksBitByBit
  intro x y s
  refine ⟨⟨_, exec_or8XY1 x y s, rfl, fun k => ?_⟩, ⟨_, exec_and8XY2 x y s, rfl, fun k => ?_⟩,
    ⟨_, exec_xor8XY3 x y s, rfl, fun k => ?_⟩⟩
  · rw [getV_setV_self, BitVec.getLsbD_or]
  · rw [getV_setV_self, BitVec.getLsbD_and]
  · rw [getV_setV_self, BitVec.getLsbD_xor]

/-! ### Shifts -/

/-- The source of a shift, as the spec's one test of the strap (41_alu.md R152, R153). -/
theorem shiftSource_eq (impl : Impl) (s : State) (x y : Nibble) :
    shiftSource impl s x y = if impl = .cosmacVip then s.getV y else s.getV x := by
  cases impl <;> rfl

@[simp] theorem flagByte_toNat (c : Bool) : (flagByte c).toNat = c.toNat := by cases c <;> rfl

theorem lowBitOut_toNat (b : Byte) : (lowBitOut b).toNat = b.toNat % 2 := by
  rw [lowBitOut, BitVec.getLsbD, Nat.toNat_testBit]; simp

theorem highBitOut_toNat (b : Byte) : (highBitOut b).toNat = b.toNat / 128 := by
  have := b.isLt
  rw [highBitOut, BitVec.getLsbD, Nat.toNat_testBit]; omega

theorem byte_shiftRight_one_toNat (b : Byte) : (b >>> 1).toNat = b.toNat / 2 := by
  rw [BitVec.toNat_ushiftRight, Nat.shiftRight_eq_div_pow]

theorem byte_shiftLeft_one_toNat (b : Byte) : (b <<< 1).toNat = b.toNat * 2 % 256 := by
  rw [BitVec.toNat_shiftLeft, Nat.shiftLeft_eq]

/-- Settles O28: result and flag are those of the source, and the flag is written last. -/
theorem shiftRightFollowsStrap : Obligations.ShiftRightFollowsStrap := by
  unfold Obligations.ShiftRightFollowsStrap
  intro x y s
  refine ⟨decode_shr8XY6 x y, _, exec_shr8XY6 x y s, rfl, _, shiftSource_eq Config.impl s x y, fun hx => ?_, ?_⟩
  · rw [getV_setResultFlag_result s _ _ hx, byte_shiftRight_one_toNat]
  · rw [getV_setResultFlag_flag, flagByte_toNat, lowBitOut_toNat]

/-- Settles O29: result and flag are those of the source, and the flag is written last. -/
theorem shiftLeftFollowsStrap : Obligations.ShiftLeftFollowsStrap := by
  unfold Obligations.ShiftLeftFollowsStrap
  intro x y s
  refine ⟨decode_shl8XYE x y, _, exec_shl8XYE x y s, rfl, _, shiftSource_eq Config.impl s x y, fun hx => ?_, ?_⟩
  · rw [getV_setResultFlag_result s _ _ hx, byte_shiftLeft_one_toNat]
  · rw [getV_setResultFlag_flag, flagByte_toNat, highBitOut_toNat]

/-! ### Index sum, random, timers -/

/-- Settles O31: the instruction writes `I` alone, with the index sum. -/
theorem addIndexOverflowsToOne : Obligations.AddIndexOverflowsToOne := by
  unfold Obligations.AddIndexOverflowsToOne
  intro x s
  exact ⟨decode_addFX1E x, _, exec_addFX1E x s, rfl, indexSum_toNat s.i (s.getV x)⟩

/-- Settles O41: the mask clears the bits of the free byte that it does not have. -/
theorem randomIsMaskedByImmediate : Obligations.RandomIsMaskedByImmediate := by
  unfold Obligations.RandomIsMaskedByImmediate
  intro x nn s
  have hx := getV_setV_self s x (Config.rnd s.draws &&& nn)
  refine ⟨decode_rndCXNN x nn, _, exec_rndCXNN x nn s, hx, fun k hk => ?_, getV_vf_setV s _, rfl⟩
  rw [State.countDraw_getV, hx, BitVec.getLsbD_and, hk, Bool.and_false]

/-- Settles O42: each moves one byte between a register and a timer. -/
theorem timerAccess : Obligations.TimerAccess := by
  unfold Obligations.TimerAccess
  intro x s
  exact ⟨decode_ldFX07 x, decode_ldFX15 x, decode_ldFX18 x,
    ⟨_, exec_ldFX07 x s, getV_setV_self s x s.dt, rfl, rfl⟩,
    ⟨_, exec_ldFX15 x s, rfl, rfl, rfl⟩,
    ⟨_, exec_ldFX18 x s, rfl, rfl, State.soundOn_iff _, rfl⟩⟩

end Sys2Proof.Machine
end

section
/-!
The register block stored and loaded (42_index_memory.md R174, R175), and the draw as a whole (43_display.md R192 to
R194).
-/

namespace Sys2Proof.Machine

/-! ### The register block -/

theorem exec_ldFX55_of_fits (x : Nibble) (s : State) (h : s.i.toNat + x.toNat + 1 ≤ 4096) :
    exec (.ldFX55 x) s = .next (s.setMem (writeBytes s.mem s.i.toNat (regBlock s x))) :=
  storeAtI_of_fits (regBlock s x) s (by rw [regBlock_length]; omega)

/-- What a read finds in the stored block. -/
theorem readByte_of_exec_ldFX55 {x : Nibble} {s t : State} (hfit : s.i.toNat + x.toNat + 1 ≤ 4096)
    (h : exec (.ldFX55 x) s = .next t) {r : Nibble} (hr : r.toNat ≤ x.toNat) :
    readByte t.mem (s.i.toNat + r.toNat) = s.getV r := by
  rw [exec_ldFX55_of_fits x s hfit] at h
  cases h; exact readByte_writeBytes_regBlock s s.mem s.i.toNat x r hr

/-- Settles O34: the block is stored at `I` where it fits; where it does not, `storeAtI` raises the fault first. -/
theorem storeRegistersWritesBlock : Obligations.StoreRegistersWritesBlock := by
  unfold Obligations.StoreRegistersWritesBlock
  intro x s
  refine ⟨decode_ldFX55 x, fun hfit => ?_, fun hout => ?_⟩
  · have he := exec_ldFX55_of_fits x s hfit
    exact ⟨_, he, rfl, fun r => readByte_of_exec_ldFX55 hfit he⟩
  · exact storeAtI_of_not_fits (regBlock s x) s (by simp) (by rw [regBlock_length]; omega)

/-- Settles O35: the block is loaded where it fits; where it does not, the fault comes before any register changes. -/
theorem loadRegistersReadsBlock : Obligations.LoadRegistersReadsBlock := by
  unfold Obligations.LoadRegistersReadsBlock
  intro x s
  refine ⟨decode_ldFX65 x, fun hfit => ?_, exec_ldFX65_of_not_fits x s⟩
  refine ⟨_, exec_ldFX65_of_fits x s hfit, rfl, fun r hr => ?_⟩
  rw [State.loaded_getV, if_pos hr]

/-- Settles O36: the load reads back what the store left. -/
theorem loadUndoesStore : Obligations.LoadUndoesStore := by
  unfold Obligations.LoadUndoesStore
  intro x s t u hfit ht hmem hi
  refine ⟨_, exec_ldFX65_of_fits x u (by rw [hi]; exact hfit), fun r hr => ?_⟩
  rw [State.loaded_getV, if_pos hr, hi, hmem, readByte_of_exec_ldFX55 hfit ht hr]

/-- Settles O37: the two bytes of the fetch are bytes of the stored block. -/
theorem storedBytesAreFetched : Obligations.StoredBytesAreFetched := by
  unfold Obligations.StoredBytesAreFetched
  intro x r q s t hfit ht hq hqx
  have hpc : (t.setPc (BitVec.ofNat 16 (s.i.toNat + r.toNat))).pc.toNat = s.i.toNat + r.toNat := by
    rw [State.setPc_pc, BitVec.toNat_ofNat]; omega
  have hhigh : readByte t.mem (s.i.toNat + r.toNat) = s.getV r := readByte_of_exec_ldFX55 hfit ht (by omega)
  have hlow : readByte t.mem (s.i.toNat + r.toNat + 1) = s.getV q := by
    rw [Nat.add_assoc, ← hq]; exact readByte_of_exec_ldFX55 hfit ht hqx
  rw [fetch_eq_some, hpc, State.setPc_mem, hhigh, hlow]
  exact ⟨by omega, rfl⟩

/-! ### The draw -/

/-- The draw flips the pixels the sprite covers, and hits where one of them was on (43_display.md R192). -/
theorem State.drawn_spec (s : State) (rx ry n : Nibble) :
    (∀ x y, x ≤ 63 → y ≤ 31 →
      (pixel (s.drawn rx ry n).fb x y ≠ pixel s.fb x y ↔ drawCovers s rx ry n x y)) ∧
    ((s.drawn rx ry n).hit = true ↔
      ∃ x y, x ≤ 63 ∧ y ≤ 31 ∧ drawCovers s rx ry n x y ∧ pixel s.fb x y = true) := by
  obtain ⟨hpixel, hhit⟩ := drawRows_spec (readBytes s.mem s.i.toNat n.toNat) (startColumn s rx) (startRow s ry)
    ⟨s.fb, false⟩
  exact ⟨hpixel, hhit.trans (or_iff_right Bool.false_ne_true)⟩

theorem flagByte_eq_one_iff (c : Bool) : flagByte c = 1 ↔ c = true := by cases c <;> decide

theorem flagByte_zero_or_one (c : Bool) : flagByte c = 0 ∨ flagByte c = 1 := by cases c <;> decide

/-- Settles O39: one side is the draw of `drawRows`, the other the fault of `memRead`. -/
theorem drawFlipsCoveredPixels : Obligations.DrawFlipsCoveredPixels := by
  unfold Obligations.DrawFlipsCoveredPixels
  intro rx ry n s
  refine ⟨decode_drwDXYN rx ry n, fun hfit => ?_, exec_drwDXYN_of_not_fits rx ry⟩
  obtain ⟨hpixel, hhit⟩ := s.drawn_spec rx ry n
  refine ⟨_, exec_drwDXYN_of_fits rx ry hfit, rfl, hpixel, ?_, ?_⟩
  · rw [getV_setFlag_self]; exact flagByte_zero_or_one _
  · rw [getV_setFlag_self, flagByte_eq_one_iff, hhit]

/-- A block depends on the bytes read only. -/
theorem readBytes_congr {m m' : Memory} (h : ∀ a, readByte m' a = readByte m a) (a n : Nat) :
    readBytes m' a n = readBytes m a n := by
  induction n generalizing a with
  | zero => rfl
  | succ n ih => simp only [readBytes, h, ih]

/-- The pixels a draw covers depend on memory, the index and the two coordinates. -/
theorem drawCovers_congr {s u : State} {rx ry : Nibble} (n : Nibble) (hmem : SameMemory s u) (hi : u.i = s.i)
    (hx : u.getV rx = s.getV rx) (hy : u.getV ry = s.getV ry) (x y : Nat) :
    drawCovers u rx ry n x y ↔ drawCovers s rx ry n x y := by
  unfold drawCovers startColumn startRow
  rw [hx, hy, hi, readBytes_congr hmem]

/-- A pixel flipped exactly where it is covered, twice, is the pixel before. -/
theorem pixel_twice {a b c : Bool} {P : Prop} (h1 : b ≠ a ↔ P) (h2 : c ≠ b ↔ P) : c = a := by
  by_cases hP : P
  · rw [Bool.eq_not.mpr (h2.mpr hP), Bool.eq_not.mpr (h1.mpr hP), Bool.not_not]
  · rw [not_not.mp (mt h2.mp hP), not_not.mp (mt h1.mp hP)]

/-- Settles O40: both draws flip the same pixels, and the second hits one that the first turned on. -/
theorem drawTwiceRestoresDisplay : Obligations.DrawTwiceRestoresDisplay := by
  unfold Obligations.DrawTwiceRestoresDisplay
  intro rx ry n s t u hfit ht hfb hmem hi hx hy
  have hfitU : u.SpriteFits n := by unfold State.SpriteFits; rw [hi]; exact hfit
  rw [exec_drwDXYN_of_fits rx ry hfit] at ht
  cases ht
  obtain ⟨hpixel, -⟩ := s.drawn_spec rx ry n
  obtain ⟨hpixelU, hhitU⟩ := u.drawn_spec rx ry n
  simp only [drawCovers_congr n hmem hi hx hy] at hpixelU hhitU
  replace hfb : u.fb = (s.drawn rx ry n).fb := hfb
  rw [hfb] at hpixelU hhitU
  refine ⟨_, exec_drwDXYN_of_fits rx ry hfitU, fun x y hx63 hy31 => ?_, ?_⟩
  · exact pixel_twice (hpixel x y hx63 hy31) (hpixelU x y hx63 hy31)
  · rw [getV_setFlag_self, flagByte_eq_one_iff, hhitU]
    refine exists_congr fun x => exists_congr fun y => and_congr_right fun hx63 => and_congr_right fun hy31 =>
      and_congr_right fun hcovered => ?_
    rw [Bool.eq_not.mpr ((hpixel x y hx63 hy31).mpr hcovered), Bool.not_eq_true']

end Sys2Proof.Machine
end

section
/-!
Frames (00_scope.md section 4; the spec's decision D4): each group of instructions is one kind of update, and what that
update leaves alone is the frame of the group. Then, over all instructions, who writes each piece of state.
-/

namespace Sys2Proof.Machine

/-! ### One update for each group -/

section Groups
variable {s t : State}

theorem setV_of_exec {x y : Nibble} {nn : Byte} :
    ∀ i ∈ [Instr.ld6XNN x nn, .add7XNN x nn, .ld8XY0 x y, .or8XY1 x y, .and8XY2 x y, .xor8XY3 x y, .ldFX07 x],
      exec i s = .next t → ∃ b, t = s.setV x b := by
  simp only [List.forall_mem_cons, exec_ld6XNN, exec_add7XNN, exec_ld8XY0, exec_or8XY1, exec_and8XY2, exec_xor8XY3,
    exec_ldFX07, Host.Outcome.next.injEq]
  exact ⟨fun h => ⟨_, h.symm⟩, fun h => ⟨_, h.symm⟩, fun h => ⟨_, h.symm⟩, fun h => ⟨_, h.symm⟩,
    fun h => ⟨_, h.symm⟩, fun h => ⟨_, h.symm⟩, fun h => ⟨_, h.symm⟩, List.forall_mem_nil _⟩

theorem setResultFlag_of_exec {x y : Nibble} :
    ∀ i ∈ [Instr.add8XY4 x y, .sub8XY5 x y, .shr8XY6 x y, .shl8XYE x y],
      exec i s = .next t → ∃ b c, t = s.setResultFlag x b c := by
  simp only [List.forall_mem_cons, exec_add8XY4, exec_sub8XY5, exec_shr8XY6, exec_shl8XYE, Host.Outcome.next.injEq]
  exact ⟨fun h => ⟨_, _, h.symm⟩, fun h => ⟨_, _, h.symm⟩, fun h => ⟨_, _, h.symm⟩, fun h => ⟨_, _, h.symm⟩,
    List.forall_mem_nil _⟩

theorem setI_of_exec {x : Nibble} {nnn : Addr12} :
    ∀ i ∈ [Instr.ldANNN nnn, .addFX1E x, .ldFX29 x], exec i s = .next t → ∃ w, t = s.setI w := by
  simp only [List.forall_mem_cons, exec_ldANNN, exec_addFX1E, exec_ldFX29, Host.Outcome.next.injEq]
  exact ⟨fun h => ⟨_, h.symm⟩, fun h => ⟨_, h.symm⟩, fun h => ⟨_, h.symm⟩, List.forall_mem_nil _⟩

theorem setPc_of_exec {x y : Nibble} {nn : Byte} {nnn : Addr12} :
    ∀ i ∈ [Instr.jp1NNN nnn, .se3XNN x nn, .sne4XNN x nn, .se5XY0 x y, .sne9XY0 x y],
      exec i s = .next t → ∃ w, t = s.setPc w := by
  simp only [List.forall_mem_cons, exec_jp1NNN, exec_se3XNN, exec_sne4XNN, exec_se5XY0, exec_sne9XY0, skipIf_eq,
    Host.Outcome.next.injEq]
  exact ⟨fun h => ⟨_, h.symm⟩, fun h => ⟨_, h.symm⟩, fun h => ⟨_, h.symm⟩, fun h => ⟨_, h.symm⟩,
    fun h => ⟨_, h.symm⟩, List.forall_mem_nil _⟩

/-- Control transfer writes `PC`, the stack and the latch only. -/
theorem control_of_exec {x y : Nibble} {nn : Byte} {nnn : Addr12} :
    ∀ i ∈ [Instr.ret00EE, .jp1NNN nnn, .call2NNN nnn, .se3XNN x nn, .sne4XNN x nn, .se5XY0 x y, .sne9XY0 x y],
      exec i s = .next t → ∃ pc sp stack fault, t = { s with pc := pc, sp := sp, stack := stack, fault := fault } := by
  have plain := @setPc_of_exec s t x y nn nnn
  have keepStack : (∃ w, t = s.setPc w) →
      ∃ pc sp stack fault, t = { s with pc := pc, sp := sp, stack := stack, fault := fault } :=
    fun ⟨w, h⟩ => ⟨w, s.sp, s.stack, s.fault, h⟩
  simp only [List.forall_mem_cons] at plain ⊢
  obtain ⟨jp, se3, sne4, se5, sne9, -⟩ := plain
  refine ⟨fun h => ?_, fun h => keepStack (jp h), fun h => ?_, fun h => keepStack (se3 h), fun h => keepStack (sne4 h),
    fun h => keepStack (se5 h), fun h => keepStack (sne9 h), List.forall_mem_nil _⟩
  · rcases exec_ret00EE_cases h with ⟨k, w, -, -, rfl⟩ | rfl
    · exact ⟨w, k, s.stack, s.fault, rfl⟩
    · exact ⟨s.pc, s.sp, s.stack, _, rfl⟩
  · rcases exec_call2NNN_cases h with ⟨hsp, rfl⟩ | rfl
    · exact ⟨_, _, _, s.fault, rfl⟩
    · exact ⟨s.pc, s.sp, s.stack, _, rfl⟩

/-- A store at `I` writes memory, inside the block, and the latch only. -/
theorem frame_of_storeAtI {bs : List Byte} (h : storeAtI bs s = .next t) :
    SameMemoryOutside s.i.toNat bs.length s t ∧ ∃ mem fault, t = { s with mem := mem, fault := fault } := by
  rcases storeAtI_cases bs s t h with ⟨-, rfl⟩ | ⟨-, rfl⟩
  · exact ⟨fun a ha => readByte_writeBytes_outside bs s.mem s.i.toNat a ha, _, s.fault, rfl⟩
  · exact ⟨fun _ _ => rfl, s.mem, _, rfl⟩

end Groups

/-! ### The frame of each group -/

/-- Settles O43: all seven are one `setV`. -/
theorem registerOperationsFrame : Obligations.RegisterOperationsFrame := by
  unfold Obligations.RegisterOperationsFrame
  intro x y nn s t i hi h
  obtain ⟨b, rfl⟩ := setV_of_exec i hi h
  exact ⟨fun r hr => getV_setV_of_ne s b hr, rfl, rfl, ⟨rfl, rfl⟩, ⟨rfl, rfl⟩, rfl, fun _ => rfl, rfl, rfl, rfl⟩

/-- Settles O44: all four are one `setResultFlag`. -/
theorem flagOperationsFrame : Obligations.FlagOperationsFrame := by
  unfold Obligations.FlagOperationsFrame
  intro x y s t i hi h
  obtain ⟨b, c, rfl⟩ := setResultFlag_of_exec i hi h
  exact ⟨fun r hx hf => getV_setResultFlag_other s b c hx hf, rfl, rfl, ⟨rfl, rfl⟩, ⟨rfl, rfl⟩, rfl, fun _ => rfl, rfl,
    rfl, rfl⟩

/-- Settles O45: the group writes `PC`, the stack and the latch; the stack clauses by instruction. -/
theorem controlTransferFrame : Obligations.ControlTransferFrame := by
  unfold Obligations.ControlTransferFrame
  intro x y nn nnn s t
  refine ⟨fun i hi h => ?_, fun i hi h => ?_, fun h => ?_, fun h k hk => ?_⟩
  · obtain ⟨pc, sp, stack, fault, rfl⟩ := control_of_exec i hi h
    exact ⟨fun _ => rfl, rfl, ⟨rfl, rfl⟩, rfl, fun _ => rfl, rfl, rfl⟩
  · obtain ⟨w, rfl⟩ := setPc_of_exec i hi h
    exact ⟨⟨rfl, rfl⟩, rfl⟩
  · rcases exec_ret00EE_cases h with ⟨k, w, -, -, rfl⟩ | rfl
    · rfl
    · rfl
  · rcases exec_call2NNN_cases h with ⟨hsp, rfl⟩ | rfl
    · exact Vector.getElem?_set_ne hsp hk.symm
    · rfl

/-- Settles O46: all three are one `setI`. -/
theorem indexOperationsFrame : Obligations.IndexOperationsFrame := by
  unfold Obligations.IndexOperationsFrame
  intro x nnn s t i hi h
  obtain ⟨w, rfl⟩ := setI_of_exec i hi h
  exact ⟨fun _ => rfl, rfl, ⟨rfl, rfl⟩, ⟨rfl, rfl⟩, rfl, fun _ => rfl, rfl, rfl, rfl⟩

/-- Settles O47: both are a store at `I`, of 3 bytes and of the register block. -/
theorem storeFrame : Obligations.StoreFrame := by
  unfold Obligations.StoreFrame
  intro x s t
  have digits (h : exec (.ldFX33 x) s = .next t) := frame_of_storeAtI h
  have block (h : exec (.ldFX55 x) s = .next t) := frame_of_storeAtI h
  rw [decimalDigits_length] at digits
  rw [regBlock_length] at block
  refine ⟨fun h => (digits h).1, fun h => (block h).1, fun i hi h => ?_⟩
  have hrest : ∃ mem fault, t = { s with mem := mem, fault := fault } := by
    simp only [List.mem_cons, List.not_mem_nil, or_false] at hi
    rcases hi with rfl | rfl
    · exact (digits h).2
    · exact (block h).2
  obtain ⟨mem, fault, rfl⟩ := hrest
  exact ⟨fun _ => rfl, rfl, rfl, ⟨rfl, rfl⟩, ⟨rfl, rfl⟩, rfl, rfl, rfl⟩

/-- Settles O48: the load writes the block of registers, or the latch. -/
theorem loadRegistersFrame : Obligations.LoadRegistersFrame := by
  unfold Obligations.LoadRegistersFrame
  intro x s t h
  rcases exec_ldFX65_cases h with rfl | rfl
  · refine ⟨fun r hr => ?_, rfl, rfl, ⟨rfl, rfl⟩, ⟨rfl, rfl⟩, rfl, fun _ => rfl, rfl, rfl⟩
    rw [State.loaded_getV, if_neg (Nat.not_le.mpr hr)]
  · exact ⟨fun _ _ => rfl, rfl, rfl, ⟨rfl, rfl⟩, ⟨rfl, rfl⟩, rfl, fun _ => rfl, rfl, rfl⟩

/-- Settles O49: the clear writes the display; the draw the display and the flag, or the latch. -/
theorem displayFrame : Obligations.DisplayFrame := by
  unfold Obligations.DisplayFrame
  intro x y n s t
  refine ⟨fun h => ?_, fun h r hr => ?_, fun i hi h => ?_⟩
  · cases h; exact ⟨fun _ => rfl, rfl⟩
  · rcases exec_drwDXYN_cases h with rfl | rfl
    · rw [getV_setFlag_of_ne _ _ hr, State.setFb_getV]
    · rfl
  · simp only [List.mem_cons, List.not_mem_nil, or_false] at hi
    rcases hi with rfl | rfl
    · cases h; exact ⟨rfl, rfl, ⟨rfl, rfl⟩, ⟨rfl, rfl⟩, fun _ => rfl, rfl, rfl⟩
    · rcases exec_drwDXYN_cases h with rfl | rfl
      · exact ⟨rfl, rfl, ⟨rfl, rfl⟩, ⟨rfl, rfl⟩, fun _ => rfl, rfl, rfl⟩
      · exact ⟨rfl, rfl, ⟨rfl, rfl⟩, ⟨rfl, rfl⟩, fun _ => rfl, rfl, rfl⟩

/-- Settles O50: each writes its one timer. -/
theorem timerWriteFrame : Obligations.TimerWriteFrame := by
  unfold Obligations.TimerWriteFrame
  intro x s t
  refine ⟨fun h => ?_, fun h => ?_, fun i hi h => ?_⟩
  · cases h; rfl
  · cases h; rfl
  · simp only [List.mem_cons, List.not_mem_nil, or_false] at hi
    rcases hi with rfl | rfl
    · cases h; exact ⟨fun _ => rfl, rfl, rfl, ⟨rfl, rfl⟩, rfl, fun _ => rfl, rfl, rfl, rfl⟩
    · cases h; exact ⟨fun _ => rfl, rfl, rfl, ⟨rfl, rfl⟩, rfl, fun _ => rfl, rfl, rfl, rfl⟩

/-- Settles O51: the draw of a byte is one `setV` and one count. -/
theorem randomFrame : Obligations.RandomFrame := by
  unfold Obligations.RandomFrame
  intro x nn s t h
  rw [exec_rndCXNN] at h
  cases h
  refine ⟨fun r hr => ?_, rfl, rfl, ⟨rfl, rfl⟩, ⟨rfl, rfl⟩, rfl, fun _ => rfl, rfl, rfl, rfl⟩
  rw [State.countDraw_getV, getV_setV_of_ne s _ hr]

/-! ### Who writes each piece of state -/

section Writers
variable {i : Instr} {s t : State}

theorem Effect.i_cases (h : Effect s i t) :
    t.i = s.i ∨ (∃ nnn, i = .ldANNN nnn) ∨ ∃ x, i = .addFX1E x ∨ i = .ldFX29 x := by
  cases h with
  | loadIndex nnn => exact .inr (.inl ⟨nnn, rfl⟩)
  | addIndex x => exact .inr (.inr ⟨x, .inl rfl⟩)
  | glyph x => exact .inr (.inr ⟨x, .inr rfl⟩)
  | _ => exact .inl rfl

theorem Effect.dt_cases (h : Effect s i t) : t.dt = s.dt ∨ ∃ x, i = .ldFX15 x := by
  cases h with
  | delay x => exact .inr ⟨x, rfl⟩
  | _ => exact .inl rfl

theorem Effect.st_cases (h : Effect s i t) : t.st = s.st ∨ ∃ x, i = .ldFX18 x := by
  cases h with
  | sound x => exact .inr ⟨x, rfl⟩
  | _ => exact .inl rfl

theorem Effect.fb_cases (h : Effect s i t) : t.fb = s.fb ∨ i = .cls00E0 ∨ ∃ x y n, i = .drwDXYN x y n := by
  cases h with
  | clear => exact .inr (.inl rfl)
  | draw rx ry n => exact .inr (.inr ⟨rx, ry, n, rfl⟩)
  | _ => exact .inl rfl

theorem Effect.stack_cases (h : Effect s i t) : SameStack s t ∨ i = .ret00EE ∨ ∃ nnn, i = .call2NNN nnn := by
  cases h with
  | ret => exact .inr (.inl rfl)
  | call nnn => exact .inr (.inr ⟨nnn, rfl⟩)
  | _ => exact .inl ⟨rfl, rfl⟩

theorem Effect.mem_cases (h : Effect s i t) : SameMemory s t ∨ ∃ x, i = .ldFX33 x ∨ i = .ldFX55 x := by
  cases h with
  | digits x => exact .inr ⟨x, .inl rfl⟩
  | store x => exact .inr ⟨x, .inr rfl⟩
  | _ => exact .inl fun _ => rfl

theorem Effect.draws_cases (h : Effect s i t) : t.draws = s.draws ∨ ∃ x nn, i = .rndCXNN x nn := by
  cases h with
  | random x nn => exact .inr ⟨x, nn, rfl⟩
  | _ => exact .inl rfl

end Writers

/-- Settles O52, piece by piece of the state, over the effects of an instruction. -/
theorem writersOfEachState : Obligations.WritersOfEachState := by
  unfold Obligations.WritersOfEachState
  intro i s t h
  have e := effect_of_exec h
  exact ⟨e.i_cases.resolve_left, e.dt_cases.resolve_left, e.st_cases.resolve_left, e.fb_cases.resolve_left,
    e.stack_cases.resolve_left, e.mem_cases.resolve_left, e.draws_cases.resolve_left⟩

end Sys2Proof.Machine
end

section
/-!
The output ports (60_exceptions.md R230 to R234, R255 to R257), the canonical form of memory (log 10), reset and launch
(70_reset_and_hazards.md R270 to R273).
-/

namespace Sys2Proof.Machine

/-! ### The output ports -/

/-- Bit `x + 64*y` of the output is pixel `(x, y)` (60_exceptions.md R256). -/
theorem State.fbBit_pixel (s : State) {x y : Nat} (hx : x ≤ 63) : s.fbBit (x + 64 * y) = pixel s.fb x y := by
  have hcol : (x + 64 * y) % 64 = x := by omega
  have hrow : (x + 64 * y) / 64 = y := by omega
  rw [State.fbBit, hcol, hrow]

theorem State.stackLen_toNat (s : State) : s.stackLen.toNat = s.sp.val := by
  have := s.sp.isLt
  rw [State.stackLen, BitVec.toNat_ofNat]; omega

theorem State.stackTop_of_empty {s : State} (h : s.sp.val = 0) : s.stackTop = none := by
  unfold State.stackTop
  split
  · rfl
  · next hk => rw [hk] at h; cases h

theorem State.stackTop_of_pos {s : State} (h : 0 < s.sp.val) : s.stackTop = s.stack[s.sp.val - 1]? := by
  unfold State.stackTop
  split
  · next hk => rw [hk] at h; cases h
  · next k hlt hk =>
    have hk16 : k < 16 := Nat.lt_of_succ_lt_succ hlt
    rw [hk]; exact (Vector.getElem?_eq_getElem hk16).symm

/-- No fault has code 0 (60_exceptions.md R236). -/
theorem Fault.code_ne_zero (f : Fault) : f.code ≠ 0 := by cases f <;> simp [Fault.code]

theorem State.faultKind_of_fault {s : State} {f : Fault} (h : s.fault = some f) :
    s.faultKind = f.code ∧ s.faultValue = some f.value := by
  simp [State.faultKind, State.faultValue, h]

theorem State.faultKind_eq_zero_iff (s : State) : s.faultKind = 0 ↔ s.fault = none := by
  cases h : s.fault with
  | none => simp [State.faultKind, h]
  | some f =>
    rw [(State.faultKind_of_fault h).1]
    exact iff_of_false f.code_ne_zero (Option.some_ne_none f)

/-- Settles O53, port by port. -/
theorem portsShowState : Obligations.PortsShowState := by
  unfold Obligations.PortsShowState
  intro s
  exact ⟨fun x y hx _ => s.fbBit_pixel hx, s.stackLen_toNat, State.stackTop_of_empty, State.stackTop_of_pos,
    s.soundOn_iff, s.faultKind_eq_zero_iff, fun _ => State.faultKind_of_fault, fun _ => State.faultKind_of_fault,
    State.faultKind_of_fault, fun _ => State.faultKind_of_fault, fun _ => State.faultKind_of_fault⟩

/-! ### The canonical form determines memory -/

section Canonical
variable {c d : Host.Cell} {m m' : Memory}

theorem wf_cons_iff : Memory.wf (c :: m) ↔
    (∀ e ∈ m, c.1 < e.1) ∧ c.1 < Config.memSize ∧ c.2 ≠ Memory.unlisted ∧ Memory.wf m := by
  simp only [Memory.wf, List.pairwise_cons, List.forall_mem_cons]; tauto

theorem readByte_cons_self : readByte (c :: m) c.1 = c.2 := if_pos rfl

theorem readByte_cons_of_ne {a : Nat} (h : a ≠ c.1) : readByte (c :: m) a = readByte m a := if_neg h.symm

/-- The first address listed reads as something, so it cannot lie below all that the other memory lists. -/
theorem not_lt_all_of_reads (hc : Memory.wf (c :: m)) (heq : ∀ a, readByte (c :: m) a = readByte m' a) :
    ¬ ∀ e ∈ m', c.1 < e.1 := by
  intro hlt
  obtain ⟨-, -, hne, -⟩ := wf_cons_iff.mp hc
  apply hne
  rw [← readByte_of_lt_all hlt, ← heq, readByte_cons_self]

/-- The least address of a canonical memory that lists one. -/
theorem lt_all_of_lt_head (hd : Memory.wf (d :: m')) {a : Nat} (h : a < d.1) : ∀ e ∈ d :: m', a < e.1 := by
  obtain ⟨hrest, -⟩ := wf_cons_iff.mp hd
  exact List.forall_mem_cons.mpr ⟨h, fun e he => Nat.lt_trans h (hrest e he)⟩

/-- Two canonical memories that read alike start with the same cell. -/
theorem head_eq_of_reads (hc : Memory.wf (c :: m)) (hd : Memory.wf (d :: m'))
    (heq : ∀ a, readByte (c :: m) a = readByte (d :: m') a) : c = d := by
  have haddr : c.1 = d.1 := Nat.le_antisymm
    (Nat.le_of_not_lt fun h => not_lt_all_of_reads hd (fun a => (heq a).symm) (lt_all_of_lt_head hc h))
    (Nat.le_of_not_lt fun h => not_lt_all_of_reads hc heq (lt_all_of_lt_head hd h))
  have hbyte : c.2 = d.2 := by rw [← readByte_cons_self (c := c) (m := m), heq, haddr, readByte_cons_self]
  exact Prod.ext haddr hbyte

/-- Past equal first cells, two canonical memories read alike too. -/
theorem tail_reads_eq (hc : Memory.wf (c :: m)) (hd : Memory.wf (c :: m'))
    (heq : ∀ a, readByte (c :: m) a = readByte (c :: m') a) (a : Nat) : readByte m a = readByte m' a := by
  by_cases ha : a = c.1
  · subst ha
    rw [readByte_of_lt_all (wf_cons_iff.mp hc).1, readByte_of_lt_all (wf_cons_iff.mp hd).1]
  · rw [← readByte_cons_of_ne ha, heq, readByte_cons_of_ne ha]

end Canonical

/-- Settles O54, by induction on one memory: the first cells are equal, and the rest read alike. -/
theorem memoryFormIsCanonical : Obligations.MemoryFormIsCanonical := by
  unfold Obligations.MemoryFormIsCanonical
  intro m
  induction m with
  | nil =>
    intro m' _ hm' heq
    cases m' with
    | nil => rfl
    | cons d m' => exact absurd (List.forall_mem_nil _) (not_lt_all_of_reads hm' fun a => (heq a).symm)
  | cons c m ih =>
    intro m' hm hm' heq
    cases m' with
    | nil => exact absurd (List.forall_mem_nil _) (not_lt_all_of_reads hm heq)
    | cons d m' =>
      obtain rfl := head_eq_of_reads hm hm' heq
      obtain ⟨-, -, -, hrest⟩ := wf_cons_iff.mp hm
      obtain ⟨-, -, -, hrest'⟩ := wf_cons_iff.mp hm'
      rw [ih m' hrest hrest' (tail_reads_eq hm hm' heq)]

/-! ### Reset -/

theorem State.reset_getV (r : Nibble) : State.reset.getV r = 0 := Vector.getElem_replicate r.isLt

theorem State.reset_stack (k : Fin 16) : State.reset.stack[k] = 0 := Vector.getElem_replicate k.isLt

/-- Settles O56: the event answers the reset state, whatever the state before, but for the model's own counters. -/
theorem resetClearsTheRest : Obligations.ResetClearsTheRest := by
  unfold Obligations.ResetClearsTheRest
  intro s
  exact ⟨_, rfl, State.reset_getV, rfl, rfl, State.reset_stack, rfl, rfl, rfl, rfl, rfl, fun _ => rfl,
    fun x y _ _ => pixel_blank x y⟩

/-! ### Launch -/

/-- A byte read after a block is written: the block's own, or the old one (00_scope.md R10). -/
theorem readByte_writeBytes (bs : List Byte) (m : Memory) (a a' : Nat) :
    readByte (writeBytes m a bs) a' =
      if a ≤ a' ∧ a' < a + bs.length then bs[a' - a]?.getD 0 else readByte m a' := by
  split
  · next h =>
    obtain ⟨k, rfl⟩ := Nat.exists_eq_add_of_le h.1
    have hk : k < bs.length := by omega
    rw [readByte_writeBytes_inside bs m a k hk, Nat.add_sub_cancel_left, List.getElem?_eq_getElem hk, Option.getD_some]
  · next h => exact readByte_writeBytes_outside bs m a a' (by omega)

/-- The memory of a launch: the font at 0x050, then the image at 0x200 (20_memory.md R71, R74). -/
def launchMemory (font image : List Byte) : Memory :=
  writeBytes (writeBytes [] Config.fontBase font) Config.programBase image

theorem fontWellFormed_iff (font : List Byte) : fontWellFormed font = true ↔ font.length = 80 := by
  simp [fontWellFormed, Config.fontSize]

theorem imageWellFormed_iff (image : List Byte) : imageWellFormed image = true ↔ image.length ≤ 3584 :=
  decide_eq_true_iff

/-- The host's load of the image fits exactly where the image is well formed (20_memory.md R74). -/
theorem blockFits_image (image : List Byte) :
    blockFits Config.programBase image.length = imageWellFormed image := by
  rw [Bool.eq_iff_iff, blockFits_iff, imageWellFormed_iff, Config.programBase]; omega

theorem blockFits_font {font : List Byte} (h : fontWellFormed font = true) :
    blockFits Config.fontBase font.length = true := by
  rw [blockFits_iff, (fontWellFormed_iff font).mp h, Config.fontBase]; omega

/-- There is a launch state exactly where both fit, and it is reset with the launch memory. -/
theorem launch_eq (font image : List Byte) :
    launch font image = if fontWellFormed font && imageWellFormed image then
      some (State.reset.setMem (launchMemory font image)) else none := by
  unfold launch
  by_cases hf : fontWellFormed font = true
  · simp only [hf, if_true, hostLoad, blockFits_font hf, blockFits_image, Option.bind_some, Bool.true_and]; rfl
  · simp [hf]

theorem wf_launchMemory {font image : List Byte} (hf : font.length = 80) (hi : image.length ≤ 3584) :
    Memory.wf (launchMemory font image) := by
  have hfont : Memory.wf (writeBytes [] Config.fontBase font) :=
    wf_writeBytes font (.inr (by rw [hf]; decide)) wf_nil
  exact wf_writeBytes image (.inr (by rw [Config.programBase, Config.memSize]; omega)) hfont

theorem readByte_launchMemory {font image : List Byte} (hf : font.length = 80) (a : Nat) :
    readByte (launchMemory font image) a =
      if 0x050 ≤ a ∧ a < 0x0A0 then font[a - 0x050]?.getD 0
      else if 0x200 ≤ a then image[a - 0x200]?.getD 0 else 0 := by
  rw [launchMemory, readByte_writeBytes, readByte_writeBytes, hf, Config.fontBase, Config.programBase]
  by_cases himage : 0x200 ≤ a
  · rw [if_neg (show ¬ (0x050 ≤ a ∧ a < 0x050 + 80) by omega), if_neg (show ¬ (0x050 ≤ a ∧ a < 0x0A0) by omega),
      if_pos himage]
    split
    · rfl
    · rw [List.getElem?_eq_none (by omega)]; rfl
  · rw [if_neg (show ¬ (0x200 ≤ a ∧ a < 0x200 + image.length) by omega), if_neg himage]; rfl

/-- Settles O57: the launch state is reset with the launch memory, and a read of that finds font, image or zero. -/
theorem launchLoadsFontAndImage : Obligations.LaunchLoadsFontAndImage := by
  unfold Obligations.LaunchLoadsFontAndImage
  intro font image
  rw [launch_eq]
  by_cases h : (fontWellFormed font && imageWellFormed image) = true
  · obtain ⟨hf, hi⟩ := Bool.and_eq_true_iff.mp h
    rw [fontWellFormed_iff] at hf
    rw [imageWellFormed_iff] at hi
    rw [if_pos h]
    refine ⟨h.symm, fun s hs => ?_⟩
    cases hs
    exact ⟨rfl, State.Inv.setMem resetMeetsInvariant (wf_launchMemory hf hi), readByte_launchMemory hf⟩
  · rw [if_neg h]
    exact ⟨(Bool.eq_false_iff.mpr h).symm, fun s hs => by cases hs⟩

end Sys2Proof.Machine
end
